-- ==== Sys2Proof/Word.lean ====
section
/-! DEFINITION. The word types of the CIEBII codec block (spec 00_scope.md R8, R10): all unsigned. -/

namespace Sys2Proof

/-- A byte or a colour component: 8 bits, unsigned (00_scope.md R8). -/
abbrev Byte := BitVec 8

/-- A chunk checksum, and the accumulator it comes from: 16 bits (00_scope.md R8). -/
abbrev Word16 := BitVec 16

/-- A pixel triplet operand: 24 bits (30_encoding.md R62). -/
abbrev Word24 := BitVec 24

/-- The command word, and the header checksum field: 32 bits (00_scope.md R8, 30_encoding.md R61). -/
abbrev Word32 := BitVec 32

/-- A width, a height, an index, a scalar result: 64 bits (00_scope.md R8, R9). -/
abbrev Word64 := BitVec 64

end Sys2Proof
end

