-- ==== Sys2Proof/Config.lean ====
section
/-! DEFINITION. What is fixed when the block is built (spec 00_scope.md R9), and the free values: what the spec leaves
without a value. -/

namespace Sys2Proof

/-- The parameters of 00_scope.md R9 that the source leaves open. No command writes them (10_state.md R31). -/
structure Config where
  /-- `MAX_CHUNKS`, the capacity of the chunk store in chunks: a natural number in 0..2^64−1. -/
  maxChunks : Nat
  /-- `MAX_IN_BYTES`, the capacity of `IN` in bytes: a natural number ≥ 30, or `none` for unbounded. -/
  maxInBytes : Option Nat
deriving DecidableEq, Repr

/-- The ranges 00_scope.md R9 gives the two parameters. -/
def Config.legal (c : Config) : Bool :=
  decide (c.maxChunks < 2 ^ 64) &&
    match c.maxInBytes with
    | none => true
    | some n => decide (30 ≤ n)

/-- "No practical limit" (00_scope.md R9): MAX_CHUNKS = 2^64−1 and an unbounded IN. DESIGN CHOICE for reset (log 3). -/
def Config.unlimited : Config := { maxChunks := 2 ^ 64 - 1, maxInBytes := none }

/-- FREE VALUE: what `ACC` holds after a command that evaluated CK. 10_state.md R28: "Their values are not kept
between evaluations or between commands" (log 5). -/
opaque Config.freeAcc : Nat → BitVec 16

/-- FREE VALUE: what `PREV` holds after a command that evaluated CK (10_state.md R28, log 5). -/
opaque Config.freePrev : Nat → BitVec 8

/-- FREE VALUE: `DETAIL` of a response with ST = 6, "whose value is unspecified" (60_exceptions.md R187, log 7). -/
opaque Config.freeDetail : Nat → Nat

end Sys2Proof
end

