-- ==== Sys2Proof/Syntax.lean ====
section
/-! DEFINITION. What the host sends: the command word with its operand slots (spec 30_encoding.md R60 to R62), and the
seventeen instructions it can stand for, one constructor for each row of the opcode table (R69), with the slots that
opcode reads (R63). -/

namespace Sys2Proof

/-- One transaction from the host: a 32-bit command word and the operand slots (30_encoding.md R60, R61, R62). The slot
the spec calls `IN` is `inp` here. -/
structure Command where
  /-- The command word. -/
  cw : Word32
  /-- `W`, width. -/
  w : Word64 := 0
  /-- `H`, height. -/
  h : Word64 := 0
  /-- `IDX`, chunk index. -/
  idx : Word64 := 0
  /-- `PIX`, one pixel triplet: r = PIX[23:16], g = PIX[15:8], b = PIX[7:0]. -/
  pix : Word24 := 0
  /-- `IN`, the input bytes. -/
  inp : List Byte := []
  /-- `TRIP`, pixel triplets in row-major order, each laid out like `PIX`. -/
  trip : List Word24 := []
deriving DecidableEq, Repr

/-- What the host can do to the block: issue a command, or assert reset (30_encoding.md R60, 70_reset_and_hazards.md
R210). -/
inductive HostAct where
  | issue (c : Command)
  | reset
deriving DecidableEq, Repr

/-- The opcode map, 30_encoding.md R69: each instruction with the slots R63 says it reads. -/
inductive Instr where
  /-- 0x01 CHECKSUM, 40_checksum.md R92. -/
  | checksum (inp : List Byte)
  /-- 0x10 PIXEL_ENCODE, 41_pixel_chunk.md R101. -/
  | pixelEncode (pix : Word24)
  /-- 0x20 CHUNK_NEW, 41_pixel_chunk.md R102. -/
  | chunkNew (pix : Word24)
  /-- 0x21 CHUNK_ENCODE, 41_pixel_chunk.md R103. -/
  | chunkEncode (pix : Word24)
  /-- 0x22 CHUNK_DECODE, 41_pixel_chunk.md R104. -/
  | chunkDecode (inp : List Byte)
  /-- 0x30 HEADER_NEW, 42_header.md R120. -/
  | headerNew (w h : Word64)
  /-- 0x31 HEADER_ENCODE, 42_header.md R121. -/
  | headerEncode (w h : Word64)
  /-- 0x32 HEADER_DECODE, 42_header.md R123. -/
  | headerDecode (inp : List Byte)
  /-- 0x40 CONT_NEW_EMPTY, 43_container.md R141. -/
  | contNewEmpty (w h : Word64)
  /-- 0x41 CONT_FROM_CHUNKS, 43_container.md R143. -/
  | contFromChunks (w h : Word64) (trip : List Word24)
  /-- 0x42 CONT_DIMENSIONS, 43_container.md R144. -/
  | contDimensions
  /-- 0x43 CONT_APPEND, 43_container.md R145. -/
  | contAppend (pix : Word24)
  /-- 0x44 CONT_GET_AT, 43_container.md R146. -/
  | contGetAt (idx : Word64)
  /-- 0x45 CONT_REMOVE_AT, 43_container.md R147. -/
  | contRemoveAt (idx : Word64)
  /-- 0x46 CONT_REPLACE_AT, 43_container.md R148. -/
  | contReplaceAt (idx : Word64) (pix : Word24)
  /-- 0x47 CONT_ENCODE, 43_container.md R150. -/
  | contEncode
  /-- 0x48 CONT_DECODE, 43_container.md R152. -/
  | contDecode (inp : List Byte)
deriving DecidableEq, Repr

end Sys2Proof
end

