-- ==== Sys2Proof/WellFormed.lean ====
section
/-! DEFINITION. Which instruction terms are within the operand types of 30_encoding.md R62. The one bound the types of
Lean do not carry is the length of `IN`, 0..MAX_IN_BYTES; every other slot admits any value of its type. An ill-formed
instruction is not refused by the machine: it takes the InputOverflow fault (60_exceptions.md R192). -/

namespace Sys2Proof

/-- `len(IN) ≤ MAX_IN_BYTES`, true where IN is unbounded (30_encoding.md R62, 00_scope.md R9). -/
def inputWithin (cfg : Config) (inp : List Byte) : Bool :=
  match cfg.maxInBytes with
  | none => true
  | some n => decide (inp.length ≤ n)

/-- Every operand slot the instruction reads holds a value of its type (30_encoding.md R62, R63). -/
def Instr.wellFormed (cfg : Config) : Instr → Bool
  | .checksum inp => inputWithin cfg inp
  | .pixelEncode _ => true
  | .chunkNew _ => true
  | .chunkEncode _ => true
  | .chunkDecode inp => inputWithin cfg inp
  | .headerNew _ _ => true
  | .headerEncode _ _ => true
  | .headerDecode inp => inputWithin cfg inp
  | .contNewEmpty _ _ => true
  | .contFromChunks _ _ _ => true
  | .contDimensions => true
  | .contAppend _ => true
  | .contGetAt _ => true
  | .contRemoveAt _ => true
  | .contReplaceAt _ _ => true
  | .contEncode => true
  | .contDecode inp => inputWithin cfg inp

end Sys2Proof
end

