-- ==== Sys2Proof/Decode.lean ====
section
/-! DEFINITION. Decoding a command, total on every 32-bit command word (spec 30_encoding.md R70, R71), and after it the
encoder, written from the opcode map R69 and the slot table R63. -/

namespace Sys2Proof

/-- `OPC`, bits [7:0] of the command word (30_encoding.md R61). -/
def opcOf (cw : Word32) : BitVec 8 := cw.extractLsb' 0 8

/-- `RSV`, bits [31:8] of the command word, "reserved, must be zero" (30_encoding.md R61). -/
def rsvOf (cw : Word32) : BitVec 24 := cw.extractLsb' 8 24

/-- Why a command word is no legal command (30_encoding.md R70). Both answer ST = 7 (60_exceptions.md R188). -/
inductive Illegal where
  /-- `RSV ≠ 0`; safe: the spec's own verdict. -/
  | reservedBits (rsv : BitVec 24)
  /-- `OPC` is not in the opcode map R69; safe: the spec's own verdict. -/
  | unassignedOpc (opc : BitVec 8)
deriving DecidableEq, Repr

/-- The opcode map R69, with the slots R63 says each opcode reads. -/
def decodeOpc (opc : BitVec 8) (c : Command) : Option Instr :=
  match opc.toNat with
  | 0x01 => some (.checksum c.inp)
  | 0x10 => some (.pixelEncode c.pix)
  | 0x20 => some (.chunkNew c.pix)
  | 0x21 => some (.chunkEncode c.pix)
  | 0x22 => some (.chunkDecode c.inp)
  | 0x30 => some (.headerNew c.w c.h)
  | 0x31 => some (.headerEncode c.w c.h)
  | 0x32 => some (.headerDecode c.inp)
  | 0x40 => some (.contNewEmpty c.w c.h)
  | 0x41 => some (.contFromChunks c.w c.h c.trip)
  | 0x42 => some .contDimensions
  | 0x43 => some (.contAppend c.pix)
  | 0x44 => some (.contGetAt c.idx)
  | 0x45 => some (.contRemoveAt c.idx)
  | 0x46 => some (.contReplaceAt c.idx c.pix)
  | 0x47 => some .contEncode
  | 0x48 => some (.contDecode c.inp)
  | _ => none

/-- The decoding procedure of 30_encoding.md R71: the reserved bits first, then the seventeen codes. -/
def decode (c : Command) : Except Illegal Instr :=
  if rsvOf c.cw ≠ 0 then .error (.reservedBits (rsvOf c.cw))
  else
    match decodeOpc (opcOf c.cw) c with
    | some i => .ok i
    | none => .error (.unassignedOpc (opcOf c.cw))

/-- `zext_32(o)`, the full command word of opcode `o` (30_encoding.md R69). -/
def commandWord (opc : BitVec 8) : Word32 := opc.setWidth 32

/-- The command of an instruction: its command word (R69) and the slots it reads (R63); a slot it does not read is
zero or empty, which R63 says is ignored. -/
def encode : Instr → Command
  | .checksum inp => { cw := commandWord 0x01, inp := inp }
  | .pixelEncode pix => { cw := commandWord 0x10, pix := pix }
  | .chunkNew pix => { cw := commandWord 0x20, pix := pix }
  | .chunkEncode pix => { cw := commandWord 0x21, pix := pix }
  | .chunkDecode inp => { cw := commandWord 0x22, inp := inp }
  | .headerNew w h => { cw := commandWord 0x30, w := w, h := h }
  | .headerEncode w h => { cw := commandWord 0x31, w := w, h := h }
  | .headerDecode inp => { cw := commandWord 0x32, inp := inp }
  | .contNewEmpty w h => { cw := commandWord 0x40, w := w, h := h }
  | .contFromChunks w h trip => { cw := commandWord 0x41, w := w, h := h, trip := trip }
  | .contDimensions => { cw := commandWord 0x42 }
  | .contAppend pix => { cw := commandWord 0x43, pix := pix }
  | .contGetAt idx => { cw := commandWord 0x44, idx := idx }
  | .contRemoveAt idx => { cw := commandWord 0x45, idx := idx }
  | .contReplaceAt idx pix => { cw := commandWord 0x46, idx := idx, pix := pix }
  | .contEncode => { cw := commandWord 0x47 }
  | .contDecode inp => { cw := commandWord 0x48, inp := inp }

/-- The command that bits `w`, numbered as spec/opcode_table.json numbers them, stand for: the low 32 bits are the
command word, and the operand slots, which the table gives no bits, are zero or empty (log 2). -/
def tableCommand (nbits w : Nat) : Command := { cw := BitVec.ofNat 32 (w % 2 ^ nbits) }

/-- The instruction this decoder reads from the table's word. -/
def decodeTableWord (nbits w : Nat) : Option Instr :=
  match decode (tableCommand nbits w) with
  | .ok i => some i
  | .error _ => none

end Sys2Proof
end

