-- ==== Sys2Proof/Machine/State.lean ====
section
/-! DEFINITION. The state of the block (spec 10_state.md R20 to R28), the response (30_encoding.md R65), the reasons a
step stops (60_exceptions.md R190), and the state after reset (10_state.md R37). -/

namespace Sys2Proof.Machine

/-- A header: width, height and the checksum field (10_state.md R22, R23). -/
structure Header where
  /-- `HDR_W` -/
  w : Word64
  /-- `HDR_H` -/
  h : Word64
  /-- `HDR_CK`, the header checksum widened to 32 bits -/
  ck : Word32
deriving DecidableEq, Repr

/-- One entry `CHK[i]` of the chunk store, 40 bits in four fields (10_state.md R25). -/
structure Chunk where
  /-- `R` -/
  r : Byte
  /-- `G` -/
  g : Byte
  /-- `B` -/
  b : Byte
  /-- `CK` -/
  ck : Word16
deriving DecidableEq, Repr

/-- What the container slot holds while `CVALID = 1` (10_state.md R20). `NCH` is the length of `chunks` (R24, log 4). -/
structure Container where
  /-- `HDR_W`, `HDR_H`, `HDR_CK` -/
  hdr : Header
  /-- `CHK[0..NCH)`, in row-major pixel order -/
  chunks : List Chunk
  /-- `PAYLOAD`, the cached encoded chunk sequence (R26) -/
  payload : List Byte
deriving DecidableEq, Repr

/-- The working registers of the checksum engine (10_state.md R28). -/
structure CkEngine where
  /-- `ACC`, the 16-bit accumulator -/
  acc : Word16
  /-- `PREV`, the 8-bit "previous" value -/
  prev : Byte
deriving DecidableEq, Repr

/-- The error kinds of 60_exceptions.md R180; their status codes are `ErrKind.code`. -/
inductive ErrKind where
  | invalidLength
  | checksumMismatch
  | illegalHeader
  | nonExistentChunk
  | dimensionMismatch
  | byteConversionFailure
  | illegalCommand
deriving DecidableEq, Repr

/-- The response of a command, each field with its default (30_encoding.md R65, R66). -/
structure Response where
  /-- `ST`, the status code -/
  st : BitVec 8 := 0
  /-- `R0` -/
  r0 : Word64 := 0
  /-- `R1` -/
  r1 : Word64 := 0
  /-- `R2` -/
  r2 : Word64 := 0
  /-- `HIT`: CONT_GET_AT found an entry -/
  hit : Bool := false
  /-- `OUT`, the output bytes -/
  out : List Byte := []
  /-- `DETAIL`, whose type the spec leaves unspecified (log 7) -/
  detail : Nat := 0
deriving DecidableEq, Repr

/-- The three model faults of 60_exceptions.md R190. The spec itself calls each a fault of the model with no response,
and each is safe: the machine stops where the spec gives no result. -/
inductive Fault where
  /-- R191: a container command other than the three constructors while `CVALID = 0`; raised by CONT_DIMENSIONS,
  CONT_APPEND, CONT_GET_AT, CONT_REMOVE_AT, CONT_REPLACE_AT and CONT_ENCODE; safe. -/
  | noContainer
  /-- R192: `len(IN) > MAX_IN_BYTES`; raised by CHECKSUM, CHUNK_DECODE, HEADER_DECODE and CONT_DECODE; safe. -/
  | inputOverflow
  /-- R193: the chunk store cannot hold the chunks; raised by CONT_FROM_CHUNKS, CONT_APPEND and CONT_DECODE; safe. -/
  | capacityExceeded
deriving DecidableEq, Repr

/-- Why the model gives an instruction no meaning. No arm of `exec` answers so: every instruction has its meaning. -/
inductive Refusal where
  /-- Raised by an arm of `exec` whose instruction has no meaning yet; safe; no arm is left so. -/
  | notModelled (mnemonic : String)
deriving DecidableEq, Repr

/-- The machine's state: the container slot, the checksum engine's registers, and beside them the interface values that
a one-argument step has to find somewhere (the host's pending actions, the last response) and the build parameters. -/
structure State where
  /-- `MAX_CHUNKS` and `MAX_IN_BYTES`, fixed when the block is built (00_scope.md R9, 10_state.md R31; log 3). -/
  cfg : Config
  /-- The container slot: `none` while `CVALID = 0` (10_state.md R20, R21). -/
  slot : Option Container
  /-- `ACC` and `PREV` (10_state.md R28; log 5). -/
  engine : CkEngine
  /-- The response of the last command performed; `none` before the first (30_encoding.md R60, R65; log 12). -/
  resp : Option Response
  /-- What the host has still to do, the next first (10_state.md R33; log 1). -/
  host : List HostAct
  /-- The MODEL's own counter, to which the free values are applied (log 8). -/
  draws : Nat
deriving DecidableEq, Repr

/-- The machine right after reset: `CVALID = 0` (10_state.md R37, 70_reset_and_hazards.md R210). DESIGN CHOICE for what
the spec gives no value: the checksum registers at their seeds (log 5), no response and nothing pending (logs 2, 12),
the build without practical limits (log 3). -/
def State.reset : State where
  cfg := Config.unlimited
  slot := none
  engine := { acc := 0, prev := 0xAB }
  resp := none
  host := []
  draws := 0

/-- How a step of this machine ends. -/
abbrev Result := Host.Outcome State Fault Refusal

end Sys2Proof.Machine
end

