-- ==== Sys2Proof/Machine/Operands.lean ====
section
/-! DEFINITION. Operand forms: how a `PIX` slot splits into its triplet (spec 30_encoding.md R62, R64), and how a chunk is
laid out in a 64-bit result (R67). -/

namespace Sys2Proof.Machine

/-- `r = PIX[23:16]` (30_encoding.md R62). -/
def pixR (p : Word24) : Byte := p.extractLsb' 16 8

/-- `g = PIX[15:8]` (30_encoding.md R62). -/
def pixG (p : Word24) : Byte := p.extractLsb' 8 8

/-- `b = PIX[7:0]` (30_encoding.md R62). -/
def pixB (p : Word24) : Byte := p.extractLsb' 0 8

/-- `TRIP_BYTES(r,g,b) = [r, g, b]` (41_pixel_chunk.md R100). -/
def tripBytes (r g b : Byte) : List Byte := [r, g, b]

/-- `CWORD(r,g,b,c) = zext_64(r·2^32 + g·2^24 + b·2^16 + c)` (30_encoding.md R67). -/
def cword (r g b : Byte) (c : Word16) : Word64 :=
  BitVec.ofNat 64 (r.toNat * 2 ^ 32 + g.toNat * 2 ^ 24 + b.toNat * 2 ^ 16 + c.toNat)

/-- `CWORD` of a chunk-store entry (43_container.md R146). -/
def Chunk.word (e : Chunk) : Word64 := cword e.r e.g e.b e.ck

end Sys2Proof.Machine
end

