-- ==== Sys2Proof/Machine/Flags.lean ====
section
/-! DEFINITION. The status of a response, the block's only condition code (spec 10_state.md R30): the codes of
60_exceptions.md R180 and the response of a command that ends with an error. -/

namespace Sys2Proof.Machine

/-- The status codes of 60_exceptions.md R180; 0 is OK. -/
def ErrKind.code : ErrKind → BitVec 8
  | .invalidLength => 1
  | .checksumMismatch => 2
  | .illegalHeader => 3
  | .nonExistentChunk => 4
  | .dimensionMismatch => 5
  | .byteConversionFailure => 6
  | .illegalCommand => 7

/-- `DETAIL` of an error response: the free value for ST = 6, its default otherwise (30_encoding.md R66,
60_exceptions.md R187). -/
def errDetail (k : ErrKind) (draw : Nat) : Nat :=
  match k with
  | .byteConversionFailure => Config.freeDetail draw
  | _ => 0

/-- The response of a command that ends with `raise k`: `ST = code(k)`, every other field at its default
(60_exceptions.md R185, 30_encoding.md R66). -/
def errResponse (k : ErrKind) (draw : Nat) : Response := { st := k.code, detail := errDetail k draw }

end Sys2Proof.Machine
end

