-- ==== Sys2Proof/Machine/Ops.lean ====
section
/-! DEFINITION. The shared operations: byte sequences (spec 00_scope.md R11), the Checksum-16 engine (40_checksum.md R90,
R91), the chunk and header records and their decoders (41_pixel_chunk.md, 42_header.md), the record split and the payload
recompute (43_container.md R140, R151), and how a command ends: with a response, with a raised error (60_exceptions.md
R185) or with a model fault (R190). -/

namespace Sys2Proof.Machine

/-! ### Byte sequences -/

/-- `BE_n(v)`, the n-byte big-endian encoding of v < 2^(8n), most significant byte first (00_scope.md R11). -/
def be : Nat → Nat → List Byte
  | 0, _ => []
  | n + 1, v => BitVec.ofNat 8 (v / 256 ^ n) :: be n v

/-- `fromBE(s)`, the unsigned integer whose big-endian encoding is s (00_scope.md R11). -/
def fromBE (s : List Byte) : Nat := s.foldl (fun acc b => acc * 256 + b.toNat) 0

/-- `s[a..b)`, bytes a up to but not including b (00_scope.md R11). -/
def slice (s : List Byte) (a b : Nat) : List Byte := (s.drop a).take (b - a)

/-- `MemRead(IN, i, n) = IN[i..i+n)` (00_scope.md R12, 20_memory.md R41). -/
def memRead (inp : List Byte) (i n : Nat) : List Byte := slice inp i (i + n)

/-- `MemWrite(OUT, s)`: the response that delivers s as its `OUT` (00_scope.md R12, 20_memory.md R42). -/
def memWrite (s : List Byte) : Response := { out := s }

/-! ### The Checksum-16 generator -/

/-- The seeds of every evaluation: `ACC = 0`, `PREV = 0xAB` (10_state.md R28). -/
def ckSeed : CkEngine := { acc := 0, prev := 0xAB }

/-- `CK_STEP` (40_checksum.md R90): the high byte subtracted is the one after this byte's addition (log 13). -/
def ckStep (e : CkEngine) (b : Byte) : CkEngine :=
  let nb := b ^^^ e.prev
  let acc := e.acc + nb.setWidth 16
  { acc := acc, prev := nb - acc.extractLsb' 8 8 }

/-- The engine's registers after the bytes of s, in order (40_checksum.md R91). -/
def ckRun (e : CkEngine) (s : List Byte) : CkEngine := s.foldl ckStep e

/-- `CK(s)`: the final accumulator (40_checksum.md R91). -/
def ck (s : List Byte) : Word16 := (ckRun ckSeed s).acc

/-! ### Chunks -/

/-- `CHUNK_REC(r,g,b) = TRIP_BYTES(r,g,b) ++ BE_2(CK(TRIP_BYTES(r,g,b)))` (41_pixel_chunk.md R103). -/
def chunkRec (r g b : Byte) : List Byte := tripBytes r g b ++ be 2 (ck (tripBytes r g b)).toNat

/-- `CHUNK_REC(e) = [e.R, e.G, e.B] ++ BE_2(e.CK)` for a store entry (41_pixel_chunk.md R103). -/
def Chunk.record (e : Chunk) : List Byte := tripBytes e.r e.g e.b ++ be 2 e.ck.toNat

/-- `ENTRY(r,g,b)`, built by CHUNK_NEW's construction (43_container.md R140, 41_pixel_chunk.md R102). -/
def entry (r g b : Byte) : Chunk := { r := r, g := g, b := b, ck := ck (tripBytes r g b) }

/-- `ENTRY(PIX)` (43_container.md R140). -/
def entryOfPix (p : Word24) : Chunk := entry (pixR p) (pixG p) (pixB p)

/-- `CHUNK_DEC(s)` (41_pixel_chunk.md R105): the length first, then the checksum over the three colour bytes. -/
def chunkDec (s : List Byte) : Except ErrKind Chunk :=
  match s with
  | [r, g, b, hi, lo] =>
    let stored := BitVec.ofNat 16 (fromBE [hi, lo])
    let computed := ck [r, g, b]
    if computed ≠ stored then .error .checksumMismatch else .ok { r := r, g := g, b := b, ck := stored }
  | _ => .error .invalidLength

/-! ### Headers -/

/-- `MAGIC`, the hardwired constant shared by header encode and decode (30_encoding.md R72; log 14). -/
def magic : List Byte := [0x43, 0x49, 0x45, 0x42, 0x49, 0x49, 0x46, 0x49, 0x4C, 0x45]

/-- `HDR_CK(w,h) = zext_32(CK(BE_8(w) ++ BE_8(h)))` (42_header.md R120). -/
def hdrCk (w h : Word64) : Word32 := (ck (be 8 w.toNat ++ be 8 h.toNat)).setWidth 32

/-- The header HEADER_NEW constructs (42_header.md R120). -/
def mkHeader (w h : Word64) : Header := { w := w, h := h, ck := hdrCk w h }

/-- `HDR_REC(w,h) = MAGIC ++ BE_8(w) ++ BE_8(h) ++ BE_4(HDR_CK(w,h))` (42_header.md R121). -/
def hdrRec (w h : Word64) : List Byte := magic ++ be 8 w.toNat ++ be 8 h.toNat ++ be 4 (hdrCk w h).toNat

/-- The conversion of an 8-byte group to a 64-bit integer; a group of another size cannot be converted (42_header.md
R122, R124; log 20). -/
def toWord64 (s : List Byte) : Option Word64 :=
  if s.length = 8 then some (BitVec.ofNat 64 (fromBE s)) else none

/-- `HDR_DEC(s)` (42_header.md R122): length, magic, integer conversion, checksum, in exactly this order. -/
def hdrDec (s : List Byte) : Except ErrKind Header :=
  if s.length ≠ 30 then .error .invalidLength
  else if slice s 0 10 ≠ magic then .error .illegalHeader
  else
    match toWord64 (slice s 10 18), toWord64 (slice s 18 26) with
    | some w, some h =>
      let stored := BitVec.ofNat 32 (fromBE (slice s 26 30))
      let computed := (ck (slice s 10 26)).setWidth 32
      if computed ≠ stored then .error .checksumMismatch else .ok { w := w, h := h, ck := stored }
    | _, _ => .error .byteConversionFailure

/-! ### Container streams -/

/-- `SPLIT5(rest)`: consecutive 5-byte records, the last one shorter where the length is no multiple of 5
(43_container.md R151). -/
def split5 : List Byte → List (List Byte)
  | [] => []
  | a :: b :: c :: d :: e :: rest => [a, b, c, d, e] :: split5 rest
  | short => [short]

/-- Every record through `CHUNK_DEC`, in order; the first failure decides (43_container.md R152, 00_scope.md R13). -/
def decodeRecs : List (List Byte) → Except ErrKind (List Chunk)
  | [] => .ok []
  | s :: rest =>
    match chunkDec s with
    | .error k => .error k
    | .ok e =>
      match decodeRecs rest with
      | .error k => .error k
      | .ok es => .ok (e :: es)

/-- `REENCODE()`: the payload of a chunk sequence (43_container.md R140). -/
def reencode (chunks : List Chunk) : List Byte := chunks.flatMap Chunk.record

/-- The exact product of the dimension check, never reduced modulo 2^64 (43_container.md R149; log 15). -/
def area (w h : Word64) : Nat := w.toNat * h.toNat

/-! ### How a command ends -/

/-- The checksum registers after a command: not kept where CK was evaluated, so free values (10_state.md R28; logs 5,
6); untouched otherwise. -/
def engineAfter (ckRan : Bool) (s : State) : CkEngine :=
  if ckRan then { acc := Config.freeAcc s.draws, prev := Config.freePrev s.draws } else s.engine

/-- The state in which the response r has been delivered. -/
def State.answer (s : State) (ckRan : Bool) (r : Response) : State :=
  { s with resp := some r, engine := engineAfter ckRan s, draws := s.draws + 1 }

/-- The state in which the slot holds c (`CVALID = 1`, 10_state.md R21). -/
def State.load (s : State) (c : Container) : State := { s with slot := some c }

/-- `return`: the command completes with the response r; `ckRan` says whether CK was evaluated. -/
def finish (s : State) (ckRan : Bool) (r : Response) : Result := .next (s.answer ckRan r)

/-- `raise k`: the block's one way to end a command with an error (60_exceptions.md R185). The response carries the
code, the container slot is exactly as before. -/
def raise (s : State) (ckRan : Bool) (k : ErrKind) : Result := finish s ckRan (errResponse k s.draws)

/-- Whether a record decoder that failed with k had evaluated CK: only its checksum comparison comes after it
(41_pixel_chunk.md R105, 42_header.md R122; log 6). -/
def ckRanBefore (k : ErrKind) : Bool := k == .checksumMismatch

/-- Whether `len(IN) ≤ MAX_IN_BYTES`; always where IN is unbounded (00_scope.md R9). -/
def inputFits (cfg : Config) (inp : List Byte) : Bool :=
  match cfg.maxInBytes with
  | none => true
  | some n => decide (inp.length ≤ n)

/-- `if len(IN) > MAX_IN_BYTES: fault InputOverflow` (60_exceptions.md R192), then the command. -/
def withInput (s : State) (inp : List Byte) (cmd : Result) : Result :=
  if inputFits s.cfg inp then cmd else .fault .inputOverflow

/-- The slot prologue `if CVALID = 0: fault NoContainer` (43_container.md R140), then the command on the container. -/
def withContainer (s : State) (cmd : Container → Result) : Result :=
  match s.slot with
  | none => .fault .noContainer
  | some c => cmd c

/-! ### The host's side of a step -/

/-- An illegal command word: ST = 7, decided before any operand is looked at (60_exceptions.md R188). -/
def answerIllegal (s : State) : Result := raise s false .illegalCommand

/-- Reset: `CVALID <- 0` and every other field without a value, as `State.reset` leaves them (70_reset_and_hazards.md
R210; log 11). The build parameters, what the host has still to do, and the model's counter stay. -/
def applyReset (s : State) : State :=
  { State.reset with cfg := s.cfg, host := s.host, draws := s.draws }

/-- Between commands the block is idle and its state is kept (60_exceptions.md R202; log 10). -/
def idle (s : State) : State := s

/-- One action taken from the host's list: where the next command is fetched (log 1). -/
def State.take (s : State) : Option (HostAct × State) :=
  match s.host with
  | [] => none
  | a :: rest => some (a, { s with host := rest })

end Sys2Proof.Machine
end

