-- ==== Sys2Proof/Machine/Checksum.lean ====
section
/-! DEFINITION. The Checksum-16 command (spec 40_checksum.md). -/

namespace Sys2Proof.Machine

/-- CHECKSUM (40_checksum.md R92). -/
def execChecksum (inp : List Byte) (s : State) : Result :=
  withInput s inp (finish s true { r0 := (ck (memRead inp 0 inp.length)).setWidth 64 })

end Sys2Proof.Machine
end

