-- ==== Sys2Proof/Machine/ContainerUnit.lean ====
section
/-! DEFINITION. The container commands (spec 43_container.md). A raised error leaves the slot exactly as it was. -/

namespace Sys2Proof.Machine

/-- CONT_NEW_EMPTY (43_container.md R141). -/
def execContNewEmpty (w h : Word64) (s : State) : Result :=
  finish (s.load { hdr := mkHeader w h, chunks := [], payload := [] }) true {}

/-- CONT_FROM_CHUNKS (43_container.md R143): the capacity before the dimensions. -/
def execContFromChunks (w h : Word64) (trip : List Word24) (s : State) : Result :=
  if trip.length > s.cfg.maxChunks then .fault .capacityExceeded
  else if trip.length ≠ area w h then raise s false .dimensionMismatch
  else
    let chunks := trip.map entryOfPix
    finish (s.load { hdr := mkHeader w h, chunks := chunks, payload := reencode chunks }) true {}

/-- CONT_DIMENSIONS (43_container.md R144). -/
def execContDimensions (s : State) : Result :=
  withContainer s fun c => finish s false { r0 := c.hdr.w, r1 := c.hdr.h }

/-- CONT_APPEND (43_container.md R145). -/
def execContAppend (pix : Word24) (s : State) : Result :=
  withContainer s fun c =>
    if c.chunks.length = s.cfg.maxChunks then .fault .capacityExceeded
    else
      let e := entryOfPix pix
      finish (s.load { c with chunks := c.chunks ++ [e], payload := c.payload ++ e.record }) true {}

/-- CONT_GET_AT (43_container.md R146): a lookup, which never fails. -/
def execContGetAt (idx : Word64) (s : State) : Result :=
  withContainer s fun c =>
    match c.chunks[idx.toNat]? with
    | some e => finish s false { hit := true, r0 := e.word }
    | none => finish s false { hit := false, r0 := 0 }

/-- CONT_REMOVE_AT (43_container.md R147). It re-encodes from the stored checksums and evaluates none (log 6). -/
def execContRemoveAt (idx : Word64) (s : State) : Result :=
  withContainer s fun c =>
    if idx.toNat < c.chunks.length then
      let chunks := c.chunks.eraseIdx idx.toNat
      finish (s.load { c with chunks := chunks, payload := reencode chunks }) false {}
    else raise s false .nonExistentChunk

/-- CONT_REPLACE_AT (43_container.md R148). -/
def execContReplaceAt (idx : Word64) (pix : Word24) (s : State) : Result :=
  withContainer s fun c =>
    if idx.toNat < c.chunks.length then
      let chunks := c.chunks.set idx.toNat (entryOfPix pix)
      finish (s.load { c with chunks := chunks, payload := reencode chunks }) true {}
    else raise s false .nonExistentChunk

/-- CONT_ENCODE (43_container.md R150): the header record is built from the dimensions (42_header.md R121). -/
def execContEncode (s : State) : Result :=
  withContainer s fun c => finish s true (memWrite (hdrRec c.hdr.w c.hdr.h ++ c.payload))

/-- CONT_DECODE (43_container.md R152): the checks in the order of its pseudocode (R153). -/
def execContDecode (inp : List Byte) (s : State) : Result :=
  withInput s inp
    (if inp.length < 30 then raise s false .invalidLength
    else
      match hdrDec (memRead inp 0 30) with
      | .error k => raise s (ckRanBefore k) k
      | .ok hdr =>
        let rest := inp.drop 30
        let recs := split5 rest
        if rest.length / 5 > s.cfg.maxChunks then .fault .capacityExceeded
        else
          match decodeRecs recs with
          | .error k => raise s true k
          | .ok es =>
            if recs.length ≠ area hdr.w hdr.h then raise s true .dimensionMismatch
            else
              finish (s.load { hdr := hdr, chunks := es, payload := rest }) true
                { r0 := hdr.w, r1 := hdr.h, r2 := BitVec.ofNat 64 recs.length })

end Sys2Proof.Machine
end

