-- ==== Sys2Proof/Machine/HeaderUnit.lean ====
section
/-! DEFINITION. The header commands (spec 42_header.md). None of them changes the container slot. -/

namespace Sys2Proof.Machine

/-- HEADER_NEW (42_header.md R120). -/
def execHeaderNew (w h : Word64) (s : State) : Result :=
  finish s true { r0 := w, r1 := h, r2 := (hdrCk w h).setWidth 64 }

/-- HEADER_ENCODE (42_header.md R121). -/
def execHeaderEncode (w h : Word64) (s : State) : Result :=
  finish s true (memWrite (hdrRec w h))

/-- HEADER_DECODE (42_header.md R122, R123). -/
def execHeaderDecode (inp : List Byte) (s : State) : Result :=
  withInput s inp
    (match hdrDec inp with
    | .error k => raise s (ckRanBefore k) k
    | .ok d => finish s true { r0 := d.w, r1 := d.h, r2 := d.ck.setWidth 64 })

end Sys2Proof.Machine
end

