-- ==== Sys2Proof/Machine/PixelChunk.lean ====
section
/-! DEFINITION. The pixel and chunk commands (spec 41_pixel_chunk.md). None of them changes the container slot. -/

namespace Sys2Proof.Machine

/-- PIXEL_ENCODE (41_pixel_chunk.md R101). It evaluates no checksum. -/
def execPixelEncode (pix : Word24) (s : State) : Result :=
  finish s false (memWrite (tripBytes (pixR pix) (pixG pix) (pixB pix)))

/-- CHUNK_NEW (41_pixel_chunk.md R102). -/
def execChunkNew (pix : Word24) (s : State) : Result :=
  let e := entryOfPix pix
  finish s true { r0 := e.word, r1 := e.ck.setWidth 64 }

/-- CHUNK_ENCODE (41_pixel_chunk.md R103). -/
def execChunkEncode (pix : Word24) (s : State) : Result :=
  finish s true (memWrite (chunkRec (pixR pix) (pixG pix) (pixB pix)))

/-- CHUNK_DECODE (41_pixel_chunk.md R104, R105). -/
def execChunkDecode (inp : List Byte) (s : State) : Result :=
  withInput s inp
    (match chunkDec inp with
    | .error k => raise s (ckRanBefore k) k
    | .ok e => finish s true { r0 := e.word, r1 := e.ck.setWidth 64 })

end Sys2Proof.Machine
end

