-- ==== Sys2Proof/Machine/Dispatch.lean ====
section
/-! DEFINITION. One arm for each instruction of the opcode map (spec 30_encoding.md R69). -/

namespace Sys2Proof.Machine

def exec (i : Instr) (s : State) : Host.Outcome State Fault Refusal :=
  match i with
  | .checksum inp => Sys2Proof.Machine.execChecksum inp s
  | .pixelEncode pix => Sys2Proof.Machine.execPixelEncode pix s
  | .chunkNew pix => Sys2Proof.Machine.execChunkNew pix s
  | .chunkEncode pix => Sys2Proof.Machine.execChunkEncode pix s
  | .chunkDecode inp => Sys2Proof.Machine.execChunkDecode inp s
  | .headerNew w h => Sys2Proof.Machine.execHeaderNew w h s
  | .headerEncode w h => Sys2Proof.Machine.execHeaderEncode w h s
  | .headerDecode inp => Sys2Proof.Machine.execHeaderDecode inp s
  | .contNewEmpty w h => Sys2Proof.Machine.execContNewEmpty w h s
  | .contFromChunks w h trip => Sys2Proof.Machine.execContFromChunks w h trip s
  | .contDimensions => Sys2Proof.Machine.execContDimensions s
  | .contAppend pix => Sys2Proof.Machine.execContAppend pix s
  | .contGetAt idx => Sys2Proof.Machine.execContGetAt idx s
  | .contRemoveAt idx => Sys2Proof.Machine.execContRemoveAt idx s
  | .contReplaceAt idx pix => Sys2Proof.Machine.execContReplaceAt idx pix s
  | .contEncode => Sys2Proof.Machine.execContEncode s
  | .contDecode inp => Sys2Proof.Machine.execContDecode inp s

end Sys2Proof.Machine
end

