-- ==== Sys2Proof/Machine/Step.lean ====
section
/-! DEFINITION. One step: the block takes the host's next action and performs it whole (spec 00_scope.md R7, 30_encoding.md
R60, 20_memory.md R49). -/

namespace Sys2Proof.Machine

/-- The host's next action: none, the block is idle; reset; or one command, decoded (30_encoding.md R71) and performed. -/
def step (s : State) : Host.Outcome State Fault Refusal :=
  match s.take with
  | none => .next (idle s)
  | some (.reset, t) => .next (applyReset t)
  | some (.issue c, t) =>
    match decode c with
    | .error _ => answerIllegal t
    | .ok i => exec i t

/-- The state in which the host issues, next, the command that the table's bits `w` stand for, its operand slots zero
or empty, before anything it had still to do (log 2). -/
def State.withFetchWord (s : State) (nbits w : Nat) : State :=
  { s with host := .issue (tableCommand nbits w) :: s.host }

end Sys2Proof.Machine
end

