-- ==== Sys2Proof/Machine/Assembler.lean ====
section
/-! DEFINITION. The spec's textual command syntax (30_encoding.md R76, R77): one command per line, the mnemonic, then the
slots that opcode reads as `name=value`, separated by commas. "The encoding of a line is its command word `zext_32(OPC)`
plus the named slots." A line is a list of characters. Log 16 names what the rule leaves to the reader. -/

namespace Sys2Proof.Machine

/-- The slots of 30_encoding.md R62, by name. -/
inductive SlotName where
  | w | h | idx | pix | inp | trip
deriving DecidableEq, Repr

/-- The tokens of a command line. -/
inductive Tok where
  /-- A mnemonic, a slot name or a number. -/
  | word (cs : List Char)
  | eq | comma | opening | closing
deriving DecidableEq, Repr

/-- The text given for a slot: one value, or a bracketed list. -/
inductive SlotText where
  | one (v : List Char)
  | many (vs : List (List Char))
deriving DecidableEq, Repr

/-- Letters, digits and the underscore of the mnemonics. -/
def isWordChar (c : Char) : Bool := c.isAlphanum || c == '_'

/-- The word read so far, first character last, as a token. -/
def flushWord (acc : List Char) : List Tok := if acc.isEmpty then [] else [.word acc.reverse]

/-- A line as tokens; a `;` starts a comment; `none` at a character the syntax does not have. -/
def tokens : List Char → List Char → Option (List Tok)
  | [], acc => some (flushWord acc)
  | c :: cs, acc =>
    if isWordChar c then tokens cs (c :: acc)
    else if c == ';' then some (flushWord acc)
    else if c == ' ' || c == '\t' then (tokens cs []).map (flushWord acc ++ ·)
    else if c == '=' then (tokens cs []).map (flushWord acc ++ .eq :: ·)
    else if c == ',' then (tokens cs []).map (flushWord acc ++ .comma :: ·)
    else if c == '[' then (tokens cs []).map (flushWord acc ++ .opening :: ·)
    else if c == ']' then (tokens cs []).map (flushWord acc ++ .closing :: ·)
    else none

/-- The elements of a bracketed list up to its closing bracket, and the tokens after it. -/
def listElems : List Tok → Option (List (List Char) × List Tok)
  | .word v :: .closing :: rest => some ([v], rest)
  | .word v :: .comma :: rest => (listElems rest).map fun p => (v :: p.1, p.2)
  | _ => none

/-- One `name=value`, and the tokens after it. -/
def slotText : List Tok → Option ((List Char × SlotText) × List Tok)
  | .word n :: .eq :: .opening :: .closing :: rest => some ((n, .many []), rest)
  | .word n :: .eq :: .opening :: rest => (listElems rest).map fun p => ((n, .many p.1), p.2)
  | .word n :: .eq :: .word v :: rest => some ((n, .one v), rest)
  | _ => none

/-- The slots of a line, separated by commas; the fuel is the number of tokens. -/
def slotTexts : Nat → List Tok → Option (List (List Char × SlotText))
  | 0, _ => none
  | fuel + 1, toks =>
    match slotText toks with
    | some (p, []) => some [p]
    | some (p, .comma :: rest) => (slotTexts fuel rest).map (p :: ·)
    | _ => none

/-- The value of a digit in the given base. -/
def digitOf (base : Nat) (c : Char) : Option Nat :=
  let n := c.toNat
  let v := if 48 ≤ n ∧ n ≤ 57 then n - 48
    else if 65 ≤ n ∧ n ≤ 70 then n - 55
    else if 97 ≤ n ∧ n ≤ 102 then n - 87
    else base
  if v < base then some v else none

/-- The value of the digits ds, read on from acc. -/
def digitsOf (base : Nat) : List Char → Nat → Option Nat
  | [], acc => some acc
  | c :: cs, acc =>
    match digitOf base c with
    | some d => digitsOf base cs (acc * base + d)
    | none => none

/-- A number, decimal or `0x` hex (30_encoding.md R76). -/
def numberOf : List Char → Option Nat
  | [] => none
  | '0' :: 'x' :: c :: cs => digitsOf 16 (c :: cs) 0
  | cs => digitsOf 10 cs 0

/-- A number below 2^n, as n bits. -/
def bitsOf (n : Nat) (v : List Char) : Option (BitVec n) :=
  match numberOf v with
  | some k => if k < 2 ^ n then some (BitVec.ofNat n k) else none
  | none => none

/-- A triplet, written `0xRRGGBB` (30_encoding.md R76). -/
def tripletOf : List Char → Option Word24
  | '0' :: 'x' :: cs => if cs.length = 6 then (digitsOf 16 cs 0).map (BitVec.ofNat 24) else none
  | _ => none

/-- A slot's name. -/
def slotNameOf (n : List Char) : Option SlotName :=
  if n = ['W'] then some .w
  else if n = ['H'] then some .h
  else if n = ['I', 'D', 'X'] then some .idx
  else if n = ['P', 'I', 'X'] then some .pix
  else if n = ['I', 'N'] then some .inp
  else if n = ['T', 'R', 'I', 'P'] then some .trip
  else none

/-- The command with one slot filled from its text, if the text has the slot's form. -/
def fillSlot (c : Command) (n : SlotName) (t : SlotText) : Option Command :=
  match n, t with
  | .w, .one v => (bitsOf 64 v).map fun x => { c with w := x }
  | .h, .one v => (bitsOf 64 v).map fun x => { c with h := x }
  | .idx, .one v => (bitsOf 64 v).map fun x => { c with idx := x }
  | .pix, .one v => (tripletOf v).map fun x => { c with pix := x }
  | .inp, .many vs => (vs.mapM (bitsOf 8)).map fun x => { c with inp := x }
  | .trip, .many vs => (vs.mapM tripletOf).map fun x => { c with trip := x }
  | _, _ => none

/-- The slots of a line put into the command, one after the other. -/
def fillSlots : Command → List (SlotName × SlotText) → Option Command
  | c, [] => some c
  | c, (n, t) :: rest =>
    match fillSlot c n t with
    | some c' => fillSlots c' rest
    | none => none

/-- Each slot text under its slot's name. -/
def namedSlots : List (List Char × SlotText) → Option (List (SlotName × SlotText))
  | [] => some []
  | (n, t) :: rest =>
    match slotNameOf n, namedSlots rest with
    | some k, some ps => some ((k, t) :: ps)
    | _, _ => none

/-- The mnemonics of 30_encoding.md R69 with their opcodes, and the slots each reads (R63). -/
def asmTable : List (List Char × BitVec 8 × List SlotName) :=
  [ (['C','H','E','C','K','S','U','M'], 0x01, [.inp]),
    (['P','I','X','E','L','_','E','N','C','O','D','E'], 0x10, [.pix]),
    (['C','H','U','N','K','_','N','E','W'], 0x20, [.pix]),
    (['C','H','U','N','K','_','E','N','C','O','D','E'], 0x21, [.pix]),
    (['C','H','U','N','K','_','D','E','C','O','D','E'], 0x22, [.inp]),
    (['H','E','A','D','E','R','_','N','E','W'], 0x30, [.w, .h]),
    (['H','E','A','D','E','R','_','E','N','C','O','D','E'], 0x31, [.w, .h]),
    (['H','E','A','D','E','R','_','D','E','C','O','D','E'], 0x32, [.inp]),
    (['C','O','N','T','_','N','E','W','_','E','M','P','T','Y'], 0x40, [.w, .h]) ] ++
  [ (['C','O','N','T','_','F','R','O','M','_','C','H','U','N','K','S'], 0x41, [.w, .h, .trip]),
    (['C','O','N','T','_','D','I','M','E','N','S','I','O','N','S'], 0x42, []),
    (['C','O','N','T','_','A','P','P','E','N','D'], 0x43, [.pix]),
    (['C','O','N','T','_','G','E','T','_','A','T'], 0x44, [.idx]),
    (['C','O','N','T','_','R','E','M','O','V','E','_','A','T'], 0x45, [.idx]),
    (['C','O','N','T','_','R','E','P','L','A','C','E','_','A','T'], 0x46, [.idx, .pix]),
    (['C','O','N','T','_','E','N','C','O','D','E'], 0x47, []),
    (['C','O','N','T','_','D','E','C','O','D','E'], 0x48, [.inp]) ]

/-- Exactly the slots the opcode reads are named, each once, in any order. -/
def slotsMatch (want : List SlotName) (given : List (SlotName × SlotText)) : Bool :=
  given.length == want.length && want.all fun n => given.any fun p => p.1 == n

/-- The slot texts after the mnemonic; a command that reads no slot has none. -/
def lineSlots (toks : List Tok) : Option (List (List Char × SlotText)) :=
  if toks.isEmpty then some [] else slotTexts toks.length toks

/-- The command one line stands for (30_encoding.md R76): its command word `zext_32(OPC)` plus the named slots. -/
def assemble (line : List Char) : Option Command :=
  match tokens line [] with
  | some (.word m :: toks) =>
    match asmTable.find? (fun row => row.1 == m), (lineSlots toks).bind namedSlots with
    | some (_, opc, want), some given =>
      if slotsMatch want given then fillSlots { cw := commandWord opc } given else none
    | _, _ => none
  | _ => none

end Sys2Proof.Machine
end

