-- ==== Sys2Proof/Safety.lean ====
section
/-! DEFINITION. What a safe state and a safe command are, in the words the statements use: the invariants of spec
00_scope.md R16, the conditions under which a command takes a model fault (60_exceptions.md R190 to R193), and the shape
of a completed command. -/

namespace Sys2Proof.Machine

/-- The chunk invariant (00_scope.md R16, 10_state.md R25). -/
def Chunk.valid (e : Chunk) : Prop := e.ck = Sys2Proof.Machine.ck (tripBytes e.r e.g e.b)

/-- The header invariant (00_scope.md R16, 10_state.md R23). -/
def Header.valid (d : Header) : Prop := d.ck = hdrCk d.w d.h

/-- The invariants of a container in a block with the given parameters (00_scope.md R16, 10_state.md R23 to R26). -/
structure Container.Valid (cfg : Config) (c : Container) : Prop where
  /-- R23: HDR_CK is the checksum of the dimensions. -/
  header : c.hdr.valid
  /-- R25: every entry's checksum is that of its triplet. -/
  chunk : ∀ e ∈ c.chunks, e.valid
  /-- R26: PAYLOAD is the concatenation of the entries' records. -/
  payload : c.payload = reencode c.chunks
  /-- R24: NCH is at most MAX_CHUNKS. -/
  capacity : c.chunks.length ≤ cfg.maxChunks

/-- A response the block can give: a status code of 60_exceptions.md R180 other than the unreachable 6, and every other
field at its default where the status is not OK (30_encoding.md R66). -/
structure Response.Valid (r : Response) : Prop where
  code : r.st ∈ [0, 1, 2, 3, 4, 5, 7]
  defaults : r.st ≠ 0 → r = { st := r.st }

/-- The invariant of the block: legal parameters, a valid container wherever there is one, a valid response wherever
there is one. -/
structure State.Inv (s : State) : Prop where
  cfg : s.cfg.legal = true
  slot : ∀ c, s.slot = some c → c.Valid s.cfg
  resp : ∀ r, s.resp = some r → r.Valid

/-- `NCH ≠ HDR_W * HDR_H`, the exact product (43_container.md R142, R149). -/
def Container.staging (c : Container) : Prop := c.chunks.length ≠ area c.hdr.w c.hdr.h

/-- The conditions under which a command takes the fault f, in the precedence of 60_exceptions.md R189 (R191, R192, R193). -/
def Faults (i : Instr) (s : State) (f : Fault) : Prop :=
  match i with
  | .checksum inp | .chunkDecode inp | .headerDecode inp =>
    f = .inputOverflow ∧ inputFits s.cfg inp = false
  | .contDimensions | .contGetAt _ | .contRemoveAt _ | .contReplaceAt _ _ | .contEncode =>
    f = .noContainer ∧ s.slot = none
  | .contAppend _ =>
    (f = .noContainer ∧ s.slot = none) ∨
      (f = .capacityExceeded ∧ ∃ c, s.slot = some c ∧ c.chunks.length = s.cfg.maxChunks)
  | .contFromChunks _ _ trip => f = .capacityExceeded ∧ s.cfg.maxChunks < trip.length
  | .contDecode inp =>
    (f = .inputOverflow ∧ inputFits s.cfg inp = false) ∨
      (f = .capacityExceeded ∧ inputFits s.cfg inp = true ∧ 30 ≤ inp.length ∧
        (∃ d, hdrDec (inp.take 30) = .ok d) ∧ s.cfg.maxChunks < (inp.length - 30) / 5)
  | .pixelEncode _ | .chunkNew _ | .chunkEncode _ | .headerNew _ _ | .headerEncode _ _ | .contNewEmpty _ _ => False

/-- The command i, performed in s, completes with the response r and leaves the slot as c; what is fixed at build time
and what the host has still to do stay. The checksum registers are not spoken of: 10_state.md R28 keeps no value in them. -/
def Completes (i : Instr) (s : State) (c : Option Container) (r : Response) : Prop :=
  ∃ t, exec i s = .next t ∧ t.resp = some r ∧ t.slot = c ∧ t.cfg = s.cfg ∧ t.host = s.host

/-- The statuses 60_exceptions.md R181 says a command can return. -/
def possibleStatus : Instr → List (BitVec 8)
  | .checksum _ | .pixelEncode _ | .chunkNew _ | .chunkEncode _ | .headerNew _ _ | .headerEncode _ _ => [0]
  | .chunkDecode _ => [0, 1, 2]
  | .headerDecode _ => [0, 1, 3, 2]
  | .contNewEmpty _ _ | .contDimensions | .contAppend _ | .contGetAt _ | .contEncode => [0]
  | .contFromChunks _ _ _ => [0, 5]
  | .contRemoveAt _ | .contReplaceAt _ _ => [0, 4]
  | .contDecode _ => [0, 1, 3, 2, 5]

/-- The three container constructors (43_container.md R140). -/
def isConstructor : Instr → Prop
  | .contNewEmpty _ _ | .contFromChunks _ _ _ | .contDecode _ => True
  | _ => False

/-- The commands 20_memory.md R50 calls idempotent: all but CONT_APPEND and CONT_REMOVE_AT. -/
def isIdempotent : Instr → Prop
  | .contAppend _ | .contRemoveAt _ => False
  | _ => True

/-- The commands that write the container slot when they succeed (10_state.md R36). -/
def writesSlot : Instr → Prop
  | .contNewEmpty _ _ | .contFromChunks _ _ _ | .contAppend _ | .contRemoveAt _ | .contReplaceAt _ _ | .contDecode _ => True
  | _ => False

/-- The slots 30_encoding.md R63 says i's opcode reads hold the same in both commands. -/
def sameReadSlots (i : Instr) (c d : Command) : Prop :=
  match i with
  | .checksum _ | .chunkDecode _ | .headerDecode _ | .contDecode _ => c.inp = d.inp
  | .pixelEncode _ | .chunkNew _ | .chunkEncode _ | .contAppend _ => c.pix = d.pix
  | .headerNew _ _ | .headerEncode _ _ | .contNewEmpty _ _ => c.w = d.w ∧ c.h = d.h
  | .contFromChunks _ _ _ => c.w = d.w ∧ c.h = d.h ∧ c.trip = d.trip
  | .contDimensions | .contEncode => True
  | .contGetAt _ | .contRemoveAt _ => c.idx = d.idx
  | .contReplaceAt _ _ => c.idx = d.idx ∧ c.pix = d.pix

/-! ### Assembler lines, as 30_encoding.md R76 writes them -/

/-- The sixteen digits, in order, in lower case. -/
def lowerDigits : List Char := ['0', '1', '2', '3', '4', '5', '6', '7', '8', '9', 'a', 'b', 'c', 'd', 'e', 'f']

/-- The sixteen digits, in order, in upper case. -/
def upperDigits : List Char := ['0', '1', '2', '3', '4', '5', '6', '7', '8', '9', 'A', 'B', 'C', 'D', 'E', 'F']

/-- The character c is the digit d of the base; a hex digit above 9 may be of either case (log 16). -/
def IsDigit (base : Nat) (c : Char) (d : Nat) : Prop :=
  d < base ∧ (lowerDigits[d]? = some c ∨ upperDigits[d]? = some c)

/-- cs is n written in the base with at least one digit, the most significant first. -/
def Digits (base : Nat) (cs : List Char) (n : Nat) : Prop :=
  cs ≠ [] ∧ ∃ ds : List Nat, List.Forall₂ (IsDigit base) cs ds ∧ n = ds.foldl (fun acc d => acc * base + d) 0

/-- v is n in decimal or in `0x` hex (R76). -/
def NumberText (v : List Char) (n : Nat) : Prop :=
  Digits 10 v n ∨ ∃ cs, v = '0' :: 'x' :: cs ∧ Digits 16 cs n

/-- v is the triplet p as `0xRRGGBB` (R76). -/
def TripletText (v : List Char) (p : Word24) : Prop :=
  ∃ cs, v = '0' :: 'x' :: cs ∧ cs.length = 6 ∧ Digits 16 cs p.toNat

/-- The elements vs as a bracketed list (R76). -/
def listText (vs : List (List Char)) : List Char := '[' :: List.intercalate [','] vs ++ [']']

/-- v is what R76 lets stand for the value that slot n has in the command c. -/
def SlotWritten (c : Command) : SlotName → List Char → Prop
  | .w, v => NumberText v c.w.toNat
  | .h, v => NumberText v c.h.toNat
  | .idx, v => NumberText v c.idx.toNat
  | .pix, v => TripletText v c.pix
  | .inp, v => ∃ vs, v = listText vs ∧ List.Forall₂ (fun u (b : Byte) => NumberText u b.toNat) vs c.inp
  | .trip, v => ∃ vs, v = listText vs ∧ List.Forall₂ TripletText vs c.trip

/-- The names of the slots (30_encoding.md R62). -/
def SlotName.label : SlotName → List Char
  | .w => ['W']
  | .h => ['H']
  | .idx => ['I', 'D', 'X']
  | .pix => ['P', 'I', 'X']
  | .inp => ['I', 'N']
  | .trip => ['T', 'R', 'I', 'P']

/-- The mnemonics of 30_encoding.md R69. -/
def mnemonicOf : Instr → List Char
  | .checksum _ => "CHECKSUM".toList
  | .pixelEncode _ => "PIXEL_ENCODE".toList
  | .chunkNew _ => "CHUNK_NEW".toList
  | .chunkEncode _ => "CHUNK_ENCODE".toList
  | .chunkDecode _ => "CHUNK_DECODE".toList
  | .headerNew _ _ => "HEADER_NEW".toList
  | .headerEncode _ _ => "HEADER_ENCODE".toList
  | .headerDecode _ => "HEADER_DECODE".toList
  | .contNewEmpty _ _ => "CONT_NEW_EMPTY".toList
  | .contFromChunks _ _ _ => "CONT_FROM_CHUNKS".toList
  | .contDimensions => "CONT_DIMENSIONS".toList
  | .contAppend _ => "CONT_APPEND".toList
  | .contGetAt _ => "CONT_GET_AT".toList
  | .contRemoveAt _ => "CONT_REMOVE_AT".toList
  | .contReplaceAt _ _ => "CONT_REPLACE_AT".toList
  | .contEncode => "CONT_ENCODE".toList
  | .contDecode _ => "CONT_DECODE".toList

/-- The slots each opcode reads (30_encoding.md R63). -/
def slotsRead : Instr → List SlotName
  | .checksum _ | .chunkDecode _ | .headerDecode _ | .contDecode _ => [.inp]
  | .pixelEncode _ | .chunkNew _ | .chunkEncode _ | .contAppend _ => [.pix]
  | .headerNew _ _ | .headerEncode _ _ | .contNewEmpty _ _ => [.w, .h]
  | .contFromChunks _ _ _ => [.w, .h, .trip]
  | .contDimensions | .contEncode => []
  | .contGetAt _ | .contRemoveAt _ => [.idx]
  | .contReplaceAt _ _ => [.idx, .pix]

/-- Spaces only. -/
def Blank (sp : List Char) : Prop := ∀ x ∈ sp, x = ' '

/-- Nothing more, or a comment (R76: "A `;` starts a comment"). -/
def CommentOrEnd (tail : List Char) : Prop := tail = [] ∨ ∃ sp cs, Blank sp ∧ tail = sp ++ ';' :: cs

/-- The slots of a line as `name=value`, separated by commas, each comma with the blanks sp after it (R76). -/
def slotsText (sp : List Char) (slots : List (SlotName × List Char)) : List Char :=
  List.intercalate (',' :: sp) (slots.map fun p => p.1.label ++ '=' :: p.2)

/-- The mnemonic, and the slots where there are any (R76). -/
def lineText (m sp : List Char) (slots : List (SlotName × List Char)) : List Char :=
  m ++ if slots = [] then [] else ' ' :: slotsText sp slots

end Sys2Proof.Machine
end

