-- ==== Sys2Proof/Certificates/Slice0/Obligations.lean ====
section
/-! DEFINITION. The statements for the provers, in the order of spec/. `Completes i s c r` (Sys2Proof/Safety.lean) says
that exec i s ANSWERS A NEXT STATE whose response is r and whose slot is c, with the build parameters and the host's
pending actions unchanged. The checksum registers ACC and PREV are spoken of in one statement only, since 10_state.md R28
keeps no value in them. -/

open Sys2Proof Sys2Proof.Machine

/-! ### Command words -/

/-- 30_encoding.md R69: the full command word of each opcode, and with R63 the slots it reads, whatever the other slots
hold. The words are written out from the table of R69. -/
def Obligations.EachCommandWordDecodes : Prop :=
  ∀ (w h idx : Word64) (pix : Word24) (inp : List Byte) (trip : List Word24),
    decode ⟨0x00000001, w, h, idx, pix, inp, trip⟩ = .ok (.checksum inp) ∧
    decode ⟨0x00000010, w, h, idx, pix, inp, trip⟩ = .ok (.pixelEncode pix) ∧
    decode ⟨0x00000020, w, h, idx, pix, inp, trip⟩ = .ok (.chunkNew pix) ∧
    decode ⟨0x00000021, w, h, idx, pix, inp, trip⟩ = .ok (.chunkEncode pix) ∧
    decode ⟨0x00000022, w, h, idx, pix, inp, trip⟩ = .ok (.chunkDecode inp) ∧
    decode ⟨0x00000030, w, h, idx, pix, inp, trip⟩ = .ok (.headerNew w h) ∧
    decode ⟨0x00000031, w, h, idx, pix, inp, trip⟩ = .ok (.headerEncode w h) ∧
    decode ⟨0x00000032, w, h, idx, pix, inp, trip⟩ = .ok (.headerDecode inp) ∧
    decode ⟨0x00000040, w, h, idx, pix, inp, trip⟩ = .ok (.contNewEmpty w h) ∧
    decode ⟨0x00000041, w, h, idx, pix, inp, trip⟩ = .ok (.contFromChunks w h trip) ∧
    decode ⟨0x00000042, w, h, idx, pix, inp, trip⟩ = .ok .contDimensions ∧
    decode ⟨0x00000043, w, h, idx, pix, inp, trip⟩ = .ok (.contAppend pix) ∧
    decode ⟨0x00000044, w, h, idx, pix, inp, trip⟩ = .ok (.contGetAt idx) ∧
    decode ⟨0x00000045, w, h, idx, pix, inp, trip⟩ = .ok (.contRemoveAt idx) ∧
    decode ⟨0x00000046, w, h, idx, pix, inp, trip⟩ = .ok (.contReplaceAt idx pix) ∧
    decode ⟨0x00000047, w, h, idx, pix, inp, trip⟩ = .ok .contEncode ∧
    decode ⟨0x00000048, w, h, idx, pix, inp, trip⟩ = .ok (.contDecode inp)

/-- Decode and encode agree, in both directions: a command decodes to i exactly when its word is i's word and it holds
i's operands in the slots 30_encoding.md R63 lists for i's opcode. A slot not listed is ignored. -/
def Obligations.DecodesExactlyToItsEncoding : Prop :=
  ∀ (c : Command) (i : Instr), decode c = .ok i ↔ c.cw = (encode i).cw ∧ sameReadSlots i c (encode i)

/-- 30_encoding.md R70, R71: a command word is legal exactly when it is one of the seventeen words of R69; RSV ≠ 0 and an
unassigned OPC are told apart, and the operand slots have no say. -/
def Obligations.IllegalWordsAreAllTheOthers : Prop :=
  ∀ c : Command,
    ((∃ i, decode c = .ok i) ↔
      c.cw ∈ [0x01, 0x10, 0x20, 0x21, 0x22, 0x30, 0x31, 0x32, 0x40, 0x41, 0x42, 0x43, 0x44, 0x45, 0x46, 0x47, 0x48]) ∧
    (256 ≤ c.cw.toNat → decode c = .error (.reservedBits (BitVec.ofNat 24 (c.cw.toNat / 256)))) ∧
    (c.cw.toNat < 256 → (∀ i, decode c ≠ .ok i) → decode c = .error (.unassignedOpc (BitVec.ofNat 8 c.cw.toNat)))

/-- 60_exceptions.md R188, 30_encoding.md R70: an illegal command word answers ST = 7 with the state unchanged, whatever
the operand slots hold and whether or not the container slot holds a container. Illegal is every word but the seventeen of
R69: RSV ≠ 0, or an unassigned OPC. Two clauses are the model's choice, not R188's words: that ACC and PREV stay (log 6; R28
keeps no value in them), and that the pending action is used up (log 1). -/
def Obligations.IllegalWordAnswersSeven : Prop :=
  ∀ (s : State) (c : Command) (rest : List HostAct), s.host = .issue c :: rest →
    c.cw ∉ [0x01, 0x10, 0x20, 0x21, 0x22, 0x30, 0x31, 0x32, 0x40, 0x41, 0x42, 0x43, 0x44, 0x45, 0x46, 0x47, 0x48] →
    ∃ t, step s = .next t ∧ t.resp = some { st := 7 } ∧ t.slot = s.slot ∧ t.engine = s.engine ∧ t.cfg = s.cfg ∧
      t.host = rest

/-- A step runs the decoded instruction: with a command that decodes to i at the head of the host's actions, the step is
exec of i in the state whose pending actions are the rest. -/
def Obligations.StepRunsTheDecodedCommand : Prop :=
  ∀ (s : State) (c : Command) (rest : List HostAct) (i : Instr),
    s.host = .issue c :: rest → decode c = .ok i → step s = exec i { s with host := rest }

/-- The steps that run no command (model's own interface, logs 10 and 11): with nothing pending the block is idle and
its state is kept (60_exceptions.md R202); a reset sets CVALID to 0 and keeps the build parameters (70_reset_and_hazards.md
R210). -/
def Obligations.IdleAndResetSteps : Prop :=
  ∀ s : State,
    (s.host = [] → step s = .next s) ∧
    (∀ rest, s.host = .reset :: rest →
      ∃ t, step s = .next t ∧ t.slot = none ∧ t.resp = none ∧ t.cfg = s.cfg ∧ t.host = rest)

/-! ### State -/

/-- 10_state.md R21: CVALID is 0 after reset; a constructor that completes with status OK makes it 1, and nothing else
does; only reset makes it 0 again; while it is 0 a command that would read the slot faults. -/
def Obligations.OnlyConstructorsAndResetMoveCvalid : Prop :=
  State.reset.slot = none ∧
  (∀ (i : Instr) (s t : State) (r : Response), exec i s = .next t → t.resp = some r → isConstructor i → r.st = 0 →
    t.slot ≠ none) ∧
  (∀ s t : State, step s = .next t → s.slot = none → t.slot ≠ none →
    ∃ c rest i r, s.host = .issue c :: rest ∧ decode c = .ok i ∧ isConstructor i ∧ t.resp = some r ∧ r.st = 0) ∧
  (∀ s t : State, step s = .next t → s.slot ≠ none → t.slot = none → ∃ rest, s.host = .reset :: rest) ∧
  (∀ (s : State) (pix : Word24) (idx : Word64), s.slot = none →
    exec .contDimensions s = .fault .noContainer ∧ exec (.contAppend pix) s = .fault .noContainer ∧
    exec (.contGetAt idx) s = .fault .noContainer ∧ exec (.contRemoveAt idx) s = .fault .noContainer ∧
    exec (.contReplaceAt idx pix) s = .fault .noContainer ∧ exec .contEncode s = .fault .noContainer)

/-- 10_state.md R22: only the three container constructors write the header; no mutation changes it, and none brings a
container into an empty slot. -/
def Obligations.OnlyConstructorsWriteTheHeader : Prop :=
  ∀ (i : Instr) (s t : State), exec i s = .next t →
    (¬ isConstructor i → ∀ c, s.slot = some c → ∃ d, t.slot = some d ∧ d.hdr = c.hdr) ∧
    (¬ isConstructor i → s.slot = none → t.slot = none)

/-- 10_state.md R28 as the model reads it (logs 5, 6): the commands whose rules evaluate no checksum leave ACC and PREV as
they were, and so do the errors found before any checksum is evaluated: ST = 3, 4, 7, ST = 5 of CONT_FROM_CHUNKS, and ST = 1
of the decoders on an input of the wrong length. The model's choice where R28 keeps no value: nothing is said of the
others. -/
def Obligations.ChecksumRegistersKeptWithoutEvaluation : Prop :=
  (∀ (s t : State) (pix : Word24) (idx : Word64),
    (exec (.pixelEncode pix) s = .next t ∨ exec .contDimensions s = .next t ∨ exec (.contGetAt idx) s = .next t ∨
      exec (.contRemoveAt idx) s = .next t) → t.engine = s.engine) ∧
  (∀ (i : Instr) (s t : State) (r : Response), exec i s = .next t → t.resp = some r →
    r.st = 3 ∨ r.st = 4 → t.engine = s.engine) ∧
  (∀ (s t : State) (w h : Word64) (trip : List Word24) (r : Response), exec (.contFromChunks w h trip) s = .next t →
    t.resp = some r → r.st = 5 → t.engine = s.engine) ∧
  (∀ (s t : State) (inp : List Byte), inp.length ≠ 5 → exec (.chunkDecode inp) s = .next t → t.engine = s.engine) ∧
  (∀ (s t : State) (inp : List Byte), inp.length ≠ 30 → exec (.headerDecode inp) s = .next t → t.engine = s.engine) ∧
  (∀ (s t : State) (inp : List Byte), inp.length < 30 → exec (.contDecode inp) s = .next t → t.engine = s.engine) ∧
  (∀ (s t : State) (c : Command) (rest : List HostAct), s.host = .issue c :: rest → (∀ i, decode c ≠ .ok i) →
    step s = .next t → t.engine = s.engine)

/-- No command writes the build parameters (10_state.md R31). The model's own list of pending actions (log 1): a step uses
up its first action, and where it is empty the idle step leaves it empty (log 10); a reset keeps the rest of it and the
build parameters (log 11). So commands take effect one at a time in the order the host issues them, as 20_memory.md R53
asks. -/
def Obligations.StepTakesOneActionAndKeepsTheBuild : Prop :=
  ∀ s t : State, step s = .next t → t.cfg = s.cfg ∧ t.host = s.host.tail

/-- 00_scope.md R16 with 10_state.md R23 to R26: the invariant holds right after reset. -/
def Obligations.ResetSatisfiesTheInvariant : Prop := State.reset.Inv

/-- 00_scope.md R16: every rule preserves the chunk, header and payload invariants; here with the capacity (10_state.md
R24) and the shape of responses (30_encoding.md R66, 60_exceptions.md R180). Every step from every state that meets the
invariant, reset and illegal words included. -/
def Obligations.EveryStepKeepsTheInvariant : Prop :=
  ∀ s t : State, s.Inv → step s = .next t → t.Inv

/-- The response and the slot after a command depend on the instruction, the slot and the build alone: not on the checksum
registers (10_state.md R28: "no command reads them directly"), not on an earlier response (R30: "no command can read the
status of an earlier command"), not on what the host has still to do. -/
def Obligations.CommandsReadOnlySlotAndBuild : Prop :=
  ∀ (i : Instr) (s s' : State), s.slot = s'.slot → s.cfg = s'.cfg →
    (∀ t, exec i s = .next t → ∃ t', exec i s' = .next t' ∧ t'.resp = t.resp ∧ t'.slot = t.slot) ∧
    (∀ f, exec i s = .fault f → exec i s' = .fault f)

/-- 20_memory.md R50: a command that is not among the six that write the slot leaves all of it as it was (10_state.md
R36); those commands, and CONT_NEW_EMPTY, CONT_FROM_CHUNKS, CONT_DECODE and CONT_REPLACE_AT, repeated with the same
operands give the same slot and the same response. A successful CONT_APPEND or CONT_REMOVE_AT changes NCH. -/
def Obligations.RepeatingACommand : Prop :=
  (∀ (i : Instr) (s t : State), ¬ writesSlot i → exec i s = .next t → t.slot = s.slot) ∧
  (∀ (i : Instr) (s t : State), isIdempotent i → exec i s = .next t →
    ∃ u, exec i t = .next u ∧ u.slot = t.slot ∧ u.resp = t.resp) ∧
  (∀ (i : Instr) (s t : State) (r : Response) (c : Container), ¬ isIdempotent i → exec i s = .next t →
    t.resp = some r → r.st = 0 → s.slot = some c → ∃ d, t.slot = some d ∧ d.chunks.length ≠ c.chunks.length)

/-! ### Byte order -/

/-- 00_scope.md R11: BE_n(v)[i] = v[8(n−1−i)+7 : 8(n−1−i)], and fromBE is its inverse, on numbers and on bytes. -/
def Obligations.BigEndianEncoding : Prop :=
  (∀ n v : Nat, v < 2 ^ (8 * n) →
    (be n v).length = n ∧ fromBE (be n v) = v ∧
    ∀ i, i < n → (be n v)[i]? = some (BitVec.ofNat 8 (v / 2 ^ (8 * (n - 1 - i))))) ∧
  (∀ s : List Byte, fromBE s < 2 ^ (8 * s.length) ∧ be s.length (fromBE s) = s)

/-- 30_encoding.md R67: the fields of a chunk word, and that it is the wire record read big-endian. -/
def Obligations.ChunkWordIsTheRecord : Prop :=
  ∀ (r g b : Byte) (c : Word16),
    (cword r g b c).toNat = r.toNat * 2 ^ 32 + g.toNat * 2 ^ 24 + b.toNat * 2 ^ 16 + c.toNat ∧
    (cword r g b c).extractLsb' 32 8 = r ∧ (cword r g b c).extractLsb' 24 8 = g ∧
    (cword r g b c).extractLsb' 16 8 = b ∧ (cword r g b c).extractLsb' 0 16 = c ∧
    (cword r g b c).extractLsb' 40 24 = 0 ∧
    (cword r g b (ck [r, g, b])).toNat = fromBE (chunkRec r g b)

/-! ### Checksum -/

/-- 40_checksum.md R90 and R91: the registers pass from the seeds through one step for each byte in order, each step the
8-bit exclusive or, the 16-bit wrapping addition and the 8-bit wrapping subtraction of the new high byte, written as
arithmetic on natural numbers; the checksum is the last ACC. -/
def Obligations.ChecksumByExactModularArithmetic : Prop :=
  ∀ s : List Byte, ∃ regs : Nat → CkEngine,
    (regs 0).acc.toNat = 0 ∧ (regs 0).prev.toNat = 0xAB ∧
    (∀ (i : Nat) (b : Byte), s[i]? = some b →
      (regs (i + 1)).acc.toNat = ((regs i).acc.toNat + (b ^^^ (regs i).prev).toNat) % 65536 ∧
      (regs (i + 1)).prev.toNat =
        ((b ^^^ (regs i).prev).toNat + 256 - (regs (i + 1)).acc.toNat / 256) % 256) ∧
    ck s = (regs s.length).acc

/-- 40_checksum.md R94 (b), derived there: changing only the last byte always changes the checksum. -/
def Obligations.LastByteChangeIsDetected : Prop :=
  ∀ (s : List Byte) (a b : Byte), a ≠ b → ck (s ++ [a]) ≠ ck (s ++ [b])

/-- 40_checksum.md R94 (d), derived there: a chunk checksum is at most 0x02FD. -/
def Obligations.ChunkChecksumBound : Prop :=
  ∀ r g b : Byte, (ck [r, g, b]).toNat ≤ 0x02FD

/-- 40_checksum.md R94 (c), 42_header.md R125 (c) and 90_conflicts.md C3: changes of an earlier byte that go undetected.
ASSUMED under 90_conflicts.md C1 (log 13): values of inputs whose accumulator passes 255. -/
def Obligations.EarlierByteChangeCanGoUndetected : Prop :=
  ck [0x00, 0x00, 0x02] = 510 ∧ ck [0x00, 0x02, 0x02] = 510 ∧
  ck [0x00, 0x00, 0x82] = 382 ∧ ck [0xFF, 0x00, 0x82] = 382 ∧
  hdrDec ((hdrRec 20 20).set 24 0x04) = .ok { w := 20, h := 1044, ck := 2161 }

/-- 40_checksum.md R92: CHECKSUM, its fault, and its corner cases. The values 65500 and 178 are ASSUMED under
90_conflicts.md C1 (log 13). -/
def Obligations.ChecksumCommand : Prop :=
  (∀ inp : List Byte, (encode (.checksum inp)).cw = 0x00000001) ∧
  (∀ (inp : List Byte) (s : State), inputFits s.cfg inp = true →
    Completes (.checksum inp) s s.slot { r0 := (ck inp).setWidth 64 }) ∧
  (∀ (inp : List Byte) (s : State), inputFits s.cfg inp = false → exec (.checksum inp) s = .fault .inputOverflow) ∧
  ck [] = 0 ∧ ck [0xAB] = 0 ∧ ck (List.replicate 410 0xFF) = 65500 ∧ ck (List.replicate 411 0xFF) = 178 ∧
  ck [0xFF, 0x00, 0x00] = 252

/-! ### Pixels and chunks -/

/-- 41_pixel_chunk.md R101: PIXEL_ENCODE on every triplet. -/
def Obligations.PixelEncodeCommand : Prop :=
  ∀ (pix : Word24) (s : State),
    (encode (.pixelEncode pix)).cw = 0x00000010 ∧
    Completes (.pixelEncode pix) s s.slot
      { out := [pix.extractLsb' 16 8, pix.extractLsb' 8 8, pix.extractLsb' 0 8] } ∧
    be 3 pix.toNat = [pix.extractLsb' 16 8, pix.extractLsb' 8 8, pix.extractLsb' 0 8]

/-- 41_pixel_chunk.md R102: CHUNK_NEW on every triplet; the checksum is below 768. -/
def Obligations.ChunkNewCommand : Prop :=
  ∀ (pix : Word24) (r g b : Byte) (s : State), r = pix.extractLsb' 16 8 → g = pix.extractLsb' 8 8 →
    b = pix.extractLsb' 0 8 →
    (encode (.chunkNew pix)).cw = 0x00000020 ∧
    Completes (.chunkNew pix) s s.slot
      { r0 := cword r g b (ck [r, g, b]), r1 := (ck [r, g, b]).setWidth 64 } ∧
    (ck [r, g, b]).toNat < 768

/-- 41_pixel_chunk.md R103: CHUNK_ENCODE on every triplet; OUT[3] is 0, 1 or 2; a valid store entry's record is that of its
triplet. -/
def Obligations.ChunkEncodeCommand : Prop :=
  (∀ (pix : Word24) (r g b : Byte) (s : State), r = pix.extractLsb' 16 8 → g = pix.extractLsb' 8 8 →
    b = pix.extractLsb' 0 8 →
    (encode (.chunkEncode pix)).cw = 0x00000021 ∧
    Completes (.chunkEncode pix) s s.slot
      { out := [r, g, b, (ck [r, g, b]).extractLsb' 8 8, (ck [r, g, b]).extractLsb' 0 8] } ∧
    (ck [r, g, b]).extractLsb' 8 8 ∈ [0x00, 0x01, 0x02]) ∧
  (∀ e : Chunk, e.ck = ck [e.r, e.g, e.b] → e.record = chunkRec e.r e.g e.b)

/-- 41_pixel_chunk.md R104 and R105: CHUNK_DECODE on every input. The stored checksum is the last two bytes, high byte
first. -/
def Obligations.ChunkDecodeCommand : Prop :=
  (∀ inp : List Byte, (encode (.chunkDecode inp)).cw = 0x00000022) ∧
  (∀ (inp : List Byte) (s : State), inputFits s.cfg inp = false → exec (.chunkDecode inp) s = .fault .inputOverflow) ∧
  (∀ (inp : List Byte) (s : State), inputFits s.cfg inp = true → inp.length ≠ 5 →
    Completes (.chunkDecode inp) s s.slot { st := 1 }) ∧
  (∀ (r g b hi lo : Byte) (s : State), inputFits s.cfg [r, g, b, hi, lo] = true → ck [r, g, b] ≠ hi ++ lo →
    Completes (.chunkDecode [r, g, b, hi, lo]) s s.slot { st := 2 }) ∧
  (∀ (r g b hi lo : Byte) (s : State), inputFits s.cfg [r, g, b, hi, lo] = true → ck [r, g, b] = hi ++ lo →
    Completes (.chunkDecode [r, g, b, hi, lo]) s s.slot
      { r0 := cword r g b (hi ++ lo), r1 := (hi ++ lo : Word16).setWidth 64 })

/-- 41_pixel_chunk.md R106: the records that decode are exactly the records of triplets, one for each triplet; every other
five-byte record gives ChecksumMismatch. -/
def Obligations.ChunkRecordRoundTrip : Prop :=
  (∀ r g b : Byte, chunkDec (chunkRec r g b) = .ok { r := r, g := g, b := b, ck := ck [r, g, b] }) ∧
  (∀ (s : List Byte) (e : Chunk), chunkDec s = .ok e → chunkRec e.r e.g e.b = s) ∧
  (∀ r g b r' g' b' : Byte, chunkRec r g b = chunkRec r' g' b' → r = r' ∧ g = g' ∧ b = b') ∧
  (∀ s : List Byte, s.length = 5 → (∀ r g b, s ≠ chunkRec r g b) → chunkDec s = .error .checksumMismatch)

/-! ### Headers -/

/-- 42_header.md R120: HEADER_NEW on every pair; HDR_CK is at most 65535; the collisions and the value R120 gives, ASSUMED
under 90_conflicts.md C1 (log 13). -/
def Obligations.HeaderNewCommand : Prop :=
  (∀ (w h : Word64) (s : State),
    (encode (.headerNew w h)).cw = 0x00000030 ∧
    Completes (.headerNew w h) s s.slot { r0 := w, r1 := h, r2 := (hdrCk w h).setWidth 64 } ∧
    (hdrCk w h).toNat = (ck (be 8 w.toNat ++ be 8 h.toNat)).toNat ∧ (hdrCk w h).toNat ≤ 65535) ∧
  hdrCk 1 0 = 2368 ∧ hdrCk 256 1 = 2368 ∧ hdrCk 20 20 = 2161 ∧ hdrCk 20 1044 = 2161

/-- 42_header.md R121: HEADER_ENCODE on every pair: magic, width, height, checksum, 30 bytes, bytes 26 and 27 zero. -/
def Obligations.HeaderEncodeCommand : Prop :=
  ∀ (w h : Word64) (s : State), ∃ out : List Byte,
    (encode (.headerEncode w h)).cw = 0x00000031 ∧
    Completes (.headerEncode w h) s s.slot { out := out } ∧ out.length = 30 ∧
    out.take 10 = [0x43, 0x49, 0x45, 0x42, 0x49, 0x49, 0x46, 0x49, 0x4C, 0x45] ∧
    fromBE ((out.drop 10).take 8) = w.toNat ∧ fromBE ((out.drop 18).take 8) = h.toNat ∧
    fromBE (out.drop 26) = (ck ((out.drop 10).take 16)).toNat ∧ out[26]? = some 0x00 ∧ out[27]? = some 0x00

/-- 42_header.md R122 and R123: HEADER_DECODE on every input, the checks in order: length, magic, checksum over the raw
sixteen bytes compared as 32 bits; the computed checksum is HDR_CK of the decoded dimensions. -/
def Obligations.HeaderDecodeCommand : Prop :=
  (∀ inp : List Byte, (encode (.headerDecode inp)).cw = 0x00000032) ∧
  (∀ (inp : List Byte) (s : State), inputFits s.cfg inp = false → exec (.headerDecode inp) s = .fault .inputOverflow) ∧
  (∀ (inp : List Byte) (s : State), inputFits s.cfg inp = true → inp.length ≠ 30 →
    Completes (.headerDecode inp) s s.slot { st := 1 }) ∧
  (∀ (m wb hb cb : List Byte) (s : State), inputFits s.cfg (m ++ wb ++ hb ++ cb) = true →
    m.length = 10 → wb.length = 8 → hb.length = 8 → cb.length = 4 →
    (ck (wb ++ hb)).setWidth 32 = hdrCk (BitVec.ofNat 64 (fromBE wb)) (BitVec.ofNat 64 (fromBE hb)) ∧
    (m ≠ [0x43, 0x49, 0x45, 0x42, 0x49, 0x49, 0x46, 0x49, 0x4C, 0x45] →
      Completes (.headerDecode (m ++ wb ++ hb ++ cb)) s s.slot { st := 3 }) ∧
    (m = [0x43, 0x49, 0x45, 0x42, 0x49, 0x49, 0x46, 0x49, 0x4C, 0x45] → (ck (wb ++ hb)).toNat ≠ fromBE cb →
      Completes (.headerDecode (m ++ wb ++ hb ++ cb)) s s.slot { st := 2 }) ∧
    (m = [0x43, 0x49, 0x45, 0x42, 0x49, 0x49, 0x46, 0x49, 0x4C, 0x45] → (ck (wb ++ hb)).toNat = fromBE cb →
      Completes (.headerDecode (m ++ wb ++ hb ++ cb)) s s.slot
        { r0 := BitVec.ofNat 64 (fromBE wb), r1 := BitVec.ofNat 64 (fromBE hb), r2 := BitVec.ofNat 64 (fromBE cb) }))

/-- 42_header.md R125: header round trip in both directions; a change to byte 25 alone is always detected, one to byte 24
of the header of (20,20) is not (ASSUMED under 90_conflicts.md C1, log 13). -/
def Obligations.HeaderRecordRoundTrip : Prop :=
  (∀ w h : Word64, hdrDec (hdrRec w h) = .ok { w := w, h := h, ck := hdrCk w h }) ∧
  (∀ (s : List Byte) (d : Header), hdrDec s = .ok d → hdrRec d.w d.h = s ∧ d.ck = hdrCk d.w d.h) ∧
  (∀ (w h : Word64) (x : Byte), (hdrRec w h)[25]? ≠ some x → hdrDec ((hdrRec w h).set 25 x) = .error .checksumMismatch) ∧
  hdrDec ((hdrRec 20 20).set 24 0x04) = .ok { w := 20, h := 1044, ck := 2161 }

/-- 20_memory.md R45: the header checksum as 16 bits computed and 32 bits stored: on encode bytes 26 and 27 are zero and
bytes 28 and 29 the checksum; on decode the four bytes are one 32-bit value, equal to the zero-extended computed checksum; a non-zero byte 26 or 27 always fails with ChecksumMismatch. -/
def Obligations.HeaderChecksumMixedWidth : Prop :=
  (∀ w h : Word64, (hdrRec w h).drop 26 =
    [0x00, 0x00, (ck (be 8 w.toNat ++ be 8 h.toNat)).extractLsb' 8 8,
      (ck (be 8 w.toNat ++ be 8 h.toNat)).extractLsb' 0 8]) ∧
  (∀ (s : List Byte) (d : Header), hdrDec s = .ok d →
    d.ck.toNat = fromBE (s.drop 26) ∧ d.ck = (ck ((s.drop 10).take 16)).setWidth 32) ∧
  (∀ (s : List Byte) (x y : Byte), s.length = 30 →
    s.take 10 = [0x43, 0x49, 0x45, 0x42, 0x49, 0x49, 0x46, 0x49, 0x4C, 0x45] →
    s[26]? = some x → s[27]? = some y → x ≠ 0x00 ∨ y ≠ 0x00 → hdrDec s = .error .checksumMismatch)

/-- 42_header.md R124: ByteConversionFailure is unreachable in the header decoder. -/
def Obligations.ByteConversionNeverFails : Prop :=
  ∀ s : List Byte, hdrDec s ≠ .error .byteConversionFailure

/-! ### Containers -/

/-- 43_container.md R141: CONT_NEW_EMPTY from any state. -/
def Obligations.ContNewEmptyCommand : Prop :=
  ∀ (w h : Word64) (s : State),
    (encode (.contNewEmpty w h)).cw = 0x00000040 ∧
    Completes (.contNewEmpty w h) s
      (some { hdr := { w := w, h := h, ck := hdrCk w h }, chunks := [], payload := [] }) {}

/-- 43_container.md R143: CONT_FROM_CHUNKS, capacity first, then the exact product, then the whole slot; TRIP[j] splits
like PIX. -/
def Obligations.ContFromChunksCommand : Prop :=
  ∀ (w h : Word64) (trip : List Word24) (s : State),
    (encode (.contFromChunks w h trip)).cw = 0x00000041 ∧
    (s.cfg.maxChunks < trip.length → exec (.contFromChunks w h trip) s = .fault .capacityExceeded) ∧
    (trip.length ≤ s.cfg.maxChunks → trip.length ≠ w.toNat * h.toNat →
      Completes (.contFromChunks w h trip) s s.slot { st := 5 }) ∧
    (trip.length ≤ s.cfg.maxChunks → trip.length = w.toNat * h.toNat →
      ∃ c : Container, Completes (.contFromChunks w h trip) s (some c) {} ∧
        c.hdr = { w := w, h := h, ck := hdrCk w h } ∧ c.chunks.length = trip.length ∧
        (∀ (j : Nat) (p : Word24), trip[j]? = some p →
          c.chunks[j]? = some (entry (p.extractLsb' 16 8) (p.extractLsb' 8 8) (p.extractLsb' 0 8))) ∧
        c.payload = c.chunks.flatMap Chunk.record)

/-- 43_container.md R149 and R143: the product is never reduced modulo 2^64, so W·H ≥ 2^64 always gives DimensionMismatch,
in CONT_FROM_CHUNKS whatever TRIP holds within the capacity, and a container that either validating constructor loads
has exactly width times height chunks. -/
def Obligations.DimensionCheckIsExact : Prop :=
  (∀ (w h : Word64) (trip : List Word24) (s : State), s.cfg.legal = true → 2 ^ 64 ≤ w.toNat * h.toNat →
    trip.length ≤ s.cfg.maxChunks → Completes (.contFromChunks w h trip) s s.slot { st := 5 }) ∧
  (∀ (i : Instr) (s t : State) (r : Response), isConstructor i → (∀ w h, i ≠ .contNewEmpty w h) → exec i s = .next t →
    t.resp = some r → r.st = 0 → ∃ c, t.slot = some c ∧ c.chunks.length = c.hdr.w.toNat * c.hdr.h.toNat)

/-- 43_container.md R144: CONT_DIMENSIONS, which never looks at the chunk count. -/
def Obligations.ContDimensionsCommand : Prop :=
  ∀ s : State,
    (encode .contDimensions).cw = 0x00000042 ∧
    (s.slot = none → exec .contDimensions s = .fault .noContainer) ∧
    (∀ c, s.slot = some c → Completes .contDimensions s s.slot { r0 := c.hdr.w, r1 := c.hdr.h })

/-- 43_container.md R145: CONT_APPEND. -/
def Obligations.ContAppendCommand : Prop :=
  ∀ (pix : Word24) (r g b : Byte) (s : State), r = pix.extractLsb' 16 8 → g = pix.extractLsb' 8 8 →
    b = pix.extractLsb' 0 8 →
    (encode (.contAppend pix)).cw = 0x00000043 ∧
    (s.slot = none → exec (.contAppend pix) s = .fault .noContainer) ∧
    (∀ c, s.slot = some c → c.chunks.length = s.cfg.maxChunks →
      exec (.contAppend pix) s = .fault .capacityExceeded) ∧
    (∀ c, s.slot = some c → c.chunks.length ≠ s.cfg.maxChunks →
      Completes (.contAppend pix) s
        (some { hdr := c.hdr, chunks := c.chunks ++ [entry r g b], payload := c.payload ++ chunkRec r g b }) {})

/-- 43_container.md R146: CONT_GET_AT on every index, in range and out of range. -/
def Obligations.ContGetAtCommand : Prop :=
  ∀ (idx : Word64) (s : State),
    (encode (.contGetAt idx)).cw = 0x00000044 ∧
    (s.slot = none → exec (.contGetAt idx) s = .fault .noContainer) ∧
    (∀ c (h : idx.toNat < c.chunks.length), s.slot = some c →
      Completes (.contGetAt idx) s s.slot
        { hit := true,
          r0 := cword c.chunks[idx.toNat].r c.chunks[idx.toNat].g c.chunks[idx.toNat].b c.chunks[idx.toNat].ck }) ∧
    (∀ c, s.slot = some c → c.chunks.length ≤ idx.toNat → Completes (.contGetAt idx) s s.slot {})

/-- 43_container.md R147: CONT_REMOVE_AT on every index; the later chunks move down one place. -/
def Obligations.ContRemoveAtCommand : Prop :=
  ∀ (idx : Word64) (s : State),
    (encode (.contRemoveAt idx)).cw = 0x00000045 ∧
    (s.slot = none → exec (.contRemoveAt idx) s = .fault .noContainer) ∧
    (∀ c, s.slot = some c → c.chunks.length ≤ idx.toNat → Completes (.contRemoveAt idx) s s.slot { st := 4 }) ∧
    (∀ c, s.slot = some c → idx.toNat < c.chunks.length →
      ∃ d : Container, Completes (.contRemoveAt idx) s (some d) {} ∧ d.hdr = c.hdr ∧
        d.chunks.length + 1 = c.chunks.length ∧
        (∀ j, d.chunks[j]? = if j < idx.toNat then c.chunks[j]? else c.chunks[j + 1]?) ∧
        d.payload = d.chunks.flatMap Chunk.record)

/-- 43_container.md R148: CONT_REPLACE_AT on every index; only the bytes 5·IDX to 5·IDX+4 of a consistent payload can
change. -/
def Obligations.ContReplaceAtCommand : Prop :=
  ∀ (idx : Word64) (pix : Word24) (r g b : Byte) (s : State), r = pix.extractLsb' 16 8 → g = pix.extractLsb' 8 8 →
    b = pix.extractLsb' 0 8 →
    (encode (.contReplaceAt idx pix)).cw = 0x00000046 ∧
    (s.slot = none → exec (.contReplaceAt idx pix) s = .fault .noContainer) ∧
    (∀ c, s.slot = some c → c.chunks.length ≤ idx.toNat →
      Completes (.contReplaceAt idx pix) s s.slot { st := 4 }) ∧
    (∀ c, s.slot = some c → idx.toNat < c.chunks.length →
      ∃ d : Container, Completes (.contReplaceAt idx pix) s (some d) {} ∧ d.hdr = c.hdr ∧
        d.chunks.length = c.chunks.length ∧
        (∀ j, j < c.chunks.length → d.chunks[j]? = if j = idx.toNat then some (entry r g b) else c.chunks[j]?) ∧
        d.payload = d.chunks.flatMap Chunk.record ∧
        (c.payload = c.chunks.flatMap Chunk.record →
          ∀ k, k < 5 * idx.toNat ∨ 5 * idx.toNat + 5 ≤ k → d.payload[k]? = c.payload[k]?))

/-- 43_container.md R150: CONT_ENCODE, in the staging state too; the length where the payload is consistent. -/
def Obligations.ContEncodeCommand : Prop :=
  ∀ s : State,
    (encode .contEncode).cw = 0x00000047 ∧
    (s.slot = none → exec .contEncode s = .fault .noContainer) ∧
    (∀ c, s.slot = some c →
      Completes .contEncode s s.slot { out := hdrRec c.hdr.w c.hdr.h ++ c.payload } ∧
      (c.payload = c.chunks.flatMap Chunk.record →
        (hdrRec c.hdr.w c.hdr.h ++ c.payload).length = 30 + 5 * c.chunks.length))

/-- 20_memory.md R51: the layout of the stream CONT_ENCODE produces from a valid container: the header's parts, and chunk k
at bytes 30+5k to 34+5k. -/
def Obligations.ContainerFrameMap : Prop :=
  ∀ (s : State) (c : Container), s.slot = some c → c.Valid s.cfg →
    ∃ out : List Byte, Completes .contEncode s s.slot { out := out } ∧
      out.length = 30 + 5 * c.chunks.length ∧
      out.take 10 = [0x43, 0x49, 0x45, 0x42, 0x49, 0x49, 0x46, 0x49, 0x4C, 0x45] ∧
      (out.drop 10).take 8 = be 8 c.hdr.w.toNat ∧ (out.drop 18).take 8 = be 8 c.hdr.h.toNat ∧
      (out.drop 26).take 4 = be 4 c.hdr.ck.toNat ∧
      ∀ k (h : k < c.chunks.length), (out.drop (30 + 5 * k)).take 5 =
        [c.chunks[k].r, c.chunks[k].g, c.chunks[k].b] ++ be 2 c.chunks[k].ck.toNat

/-- 43_container.md R151 (with 20_memory.md R46): the record split, its count, each record, and that it equals grouping the
whole buffer in fives and skipping the first six groups. -/
def Obligations.RecordSplit : Prop :=
  (∀ rest : List Byte, (split5 rest).length = (rest.length + 4) / 5 ∧
    ∀ j, j < (rest.length + 4) / 5 → (split5 rest)[j]? = some ((rest.drop (5 * j)).take (min 5 (rest.length - 5 * j)))) ∧
  (∀ head rest : List Byte, head.length = 30 → (split5 (head ++ rest)).drop 6 = split5 rest)

/-- 43_container.md R152 and R153: CONT_DECODE on every input, check after check in the order of the pseudocode: overflow,
length, header errors, capacity, the first record that fails, the exact count; and on success the whole slot, with
HDR_CK the checksum of the dimensions and PAYLOAD the encoded chunks. The records are written out as slices of the bytes
from offset 30. -/
def Obligations.ContDecodeCommand : Prop :=
  ∀ (inp rest : List Byte) (s : State) (k : Nat), rest = inp.drop 30 → k = (rest.length + 4) / 5 →
    (encode (.contDecode inp)).cw = 0x00000048 ∧
    (inputFits s.cfg inp = false → exec (.contDecode inp) s = .fault .inputOverflow) ∧
    (inputFits s.cfg inp = true →
      (inp.length < 30 → Completes (.contDecode inp) s s.slot { st := 1 }) ∧
      (30 ≤ inp.length →
        (∀ e, hdrDec (inp.take 30) = .error e → Completes (.contDecode inp) s s.slot { st := e.code }) ∧
        (∀ d, hdrDec (inp.take 30) = .ok d →
          (s.cfg.maxChunks < rest.length / 5 → exec (.contDecode inp) s = .fault .capacityExceeded) ∧
          (rest.length / 5 ≤ s.cfg.maxChunks →
            (∀ j e, j < k → (∀ i, i < j → ∃ x, chunkDec ((rest.drop (5 * i)).take 5) = .ok x) →
              chunkDec ((rest.drop (5 * j)).take 5) = .error e →
              Completes (.contDecode inp) s s.slot { st := e.code }) ∧
            (∀ es : List Chunk, es.length = k →
              (∀ (j : Nat) (x : Chunk), es[j]? = some x → chunkDec ((rest.drop (5 * j)).take 5) = .ok x) →
              (k ≠ d.w.toNat * d.h.toNat → Completes (.contDecode inp) s s.slot { st := 5 }) ∧
              (k = d.w.toNat * d.h.toNat →
                d.ck = hdrCk d.w d.h ∧ rest = es.flatMap Chunk.record ∧
                Completes (.contDecode inp) s (some { hdr := d, chunks := es, payload := rest })
                  { r0 := d.w, r1 := d.h, r2 := BitVec.ofNat 64 k }))))))

/-- What CONT_DECODE accepts: exactly the streams HDR_REC(w,h) ++ CHUNK_REC(...) of width times height chunks within the
capacity. It accepts nothing else, and loads exactly what the stream says (43_container.md R152 with 41_pixel_chunk.md R106
and 42_header.md R125). -/
def Obligations.DecodeAcceptsExactlyEncodedStreams : Prop :=
  ∀ (inp : List Byte) (s : State), inputFits s.cfg inp = true →
    ((∃ t r, exec (.contDecode inp) s = .next t ∧ t.resp = some r ∧ r.st = 0) ↔
      ∃ (w h : Word64) (px : List (Byte × Byte × Byte)), px.length = w.toNat * h.toNat ∧
        px.length ≤ s.cfg.maxChunks ∧ inp = hdrRec w h ++ px.flatMap fun p => chunkRec p.1 p.2.1 p.2.2) ∧
    (∀ (w h : Word64) (px : List (Byte × Byte × Byte)), px.length = w.toNat * h.toNat → px.length ≤ s.cfg.maxChunks →
      inp = hdrRec w h ++ px.flatMap (fun p => chunkRec p.1 p.2.1 p.2.2) →
      Completes (.contDecode inp) s
        (some { hdr := { w := w, h := h, ck := hdrCk w h }, chunks := px.map fun p => entry p.1 p.2.1 p.2.2,
                payload := px.flatMap fun p => chunkRec p.1 p.2.1 p.2.2 })
        { r0 := w, r1 := h, r2 := BitVec.ofNat 64 px.length })

/-- 43_container.md R154: CONT_ENCODE then CONT_DECODE of its OUT gives ST = 0 and the slot as it was, for a container
with exactly width times height chunks whose stream fits the input buffer. -/
def Obligations.EncodeThenDecodeRestoresTheContainer : Prop :=
  ∀ (s : State) (c : Container), s.slot = some c → c.Valid s.cfg → c.chunks.length = c.hdr.w.toNat * c.hdr.h.toNat →
    (∀ n, s.cfg.maxInBytes = some n → 30 + 5 * c.chunks.length ≤ n) →
    ∃ t r u q, exec .contEncode s = .next t ∧ t.resp = some r ∧ r.st = 0 ∧ exec (.contDecode r.out) t = .next u ∧
      u.resp = some q ∧ q.st = 0 ∧ u.slot = s.slot

/-- 43_container.md R155: the stream CONT_ENCODE makes from a staging container makes CONT_DECODE fail with
DimensionMismatch; the slot stays. -/
def Obligations.StagingStreamIsRejected : Prop :=
  ∀ (s : State) (c : Container), s.slot = some c → c.Valid s.cfg → c.chunks.length ≠ c.hdr.w.toNat * c.hdr.h.toNat →
    (∀ n, s.cfg.maxInBytes = some n → 30 + 5 * c.chunks.length ≤ n) →
    ∃ t r u, exec .contEncode s = .next t ∧ t.resp = some r ∧ r.st = 0 ∧ exec (.contDecode r.out) t = .next u ∧
      u.resp = some { st := 5 } ∧ u.slot = s.slot

/-- 43_container.md R142: only CONT_NEW_EMPTY, CONT_APPEND and CONT_REMOVE_AT produce the staging state; a successful
CONT_FROM_CHUNKS or CONT_DECODE leaves a container that is not staging; CONT_REPLACE_AT, CONT_DIMENSIONS, CONT_GET_AT
and CONT_ENCODE keep NCH and the header. -/
def Obligations.WhoEntersTheStagingState : Prop :=
  (∀ (i : Instr) (s t : State) (d : Container), exec i s = .next t → t.slot = some d → d.staging →
    (∀ c, s.slot = some c → ¬ c.staging) →
    (∃ w h, i = .contNewEmpty w h) ∨ (∃ pix, i = .contAppend pix) ∨ (∃ idx, i = .contRemoveAt idx)) ∧
  (∀ (i : Instr) (s t : State) (r : Response) (d : Container), exec i s = .next t → t.resp = some r → r.st = 0 →
    ((∃ w h trip, i = .contFromChunks w h trip) ∨ (∃ inp, i = .contDecode inp)) → t.slot = some d → ¬ d.staging) ∧
  (∀ (i : Instr) (s t : State) (c : Container), exec i s = .next t → s.slot = some c →
    ((∃ idx pix, i = .contReplaceAt idx pix) ∨ i = .contDimensions ∨ (∃ idx, i = .contGetAt idx) ∨ i = .contEncode) →
    ∃ d, t.slot = some d ∧ d.chunks.length = c.chunks.length ∧ d.hdr = c.hdr)

/-- Two ways for the host to deliver an image (60_exceptions.md R196: "CONT_FROM_CHUNKS, or CONT_NEW_EMPTY plus CONT_APPEND
per pixel") leave the same container: the run of CONT_NEW_EMPTY and one CONT_APPEND for each triplet ends with the slot
that CONT_FROM_CHUNKS loads, within the capacity. -/
def Obligations.AppendingPixelsEqualsFromChunks : Prop :=
  ∀ (s : State) (w h : Word64) (trip : List Word24), trip.length = w.toNat * h.toNat →
    trip.length ≤ s.cfg.maxChunks →
    s.host = .issue (encode (.contNewEmpty w h)) :: trip.map (fun p => .issue (encode (.contAppend p))) →
    ∃ t u, Sys2Proof.core.run (trip.length + 1) s = .next t ∧ exec (.contFromChunks w h trip) s = .next u ∧
      t.slot = u.slot ∧ t.host = [] ∧ ∃ c, t.slot = some c ∧ c.chunks.length = trip.length

/-! ### Errors and faults -/

/-- 60_exceptions.md R185: a command that ends with an error writes no state, and its response has every field but ST at
its default; illegal words included. -/
def Obligations.ErrorsWriteNothing : Prop :=
  ∀ (s t : State) (c : Command) (rest : List HostAct) (r : Response), s.host = .issue c :: rest → step s = .next t →
    t.resp = some r → r.st ≠ 0 → t.slot = s.slot ∧ t.cfg = s.cfg ∧ t.host = rest ∧ r = { st := r.st }

/-- 60_exceptions.md R181, R187: no command answers a status outside its row of the table; no command answers ST = 6. -/
def Obligations.StatusesOfEachCommand : Prop :=
  ∀ (i : Instr) (s t : State) (r : Response), exec i s = .next t → t.resp = some r →
    r.st ∈ possibleStatus i ∧ r.st ≠ 6

/-- 60_exceptions.md R190 to R193 in the precedence of R189: a command takes a model fault exactly under the conditions
the rules give, and never any other; no command is refused. -/
def Obligations.FaultsExactlyWhereTheRulesSay : Prop :=
  ∀ (i : Instr) (s : State), (∀ f, exec i s = .fault f ↔ Faults i s f) ∧ (∀ q, exec i s ≠ .refused q)

/-! ### The assembler -/

/-- 30_encoding.md R76, in both directions. The line of an instruction, its mnemonic of R69 and each slot R63 lists for it
named once with the value written as R76 says, assembles to `zext_32(OPC)` with exactly the written values, which is the
instruction's command (the seventeen words stand in the statements of the commands). And every line that assembles gives
the command of some instruction: no pseudo-commands (R77), no other slots. The model's choice beyond R76's words (log 16):
the order of the slots is free, hex digits may be of either case, elements of IN may be decimal or hex. -/
def Obligations.AssembledLinesAreCommands : Prop :=
  (∀ (i : Instr) (slots : List (SlotName × List Char)) (sp tail : List Char),
    (slots.map Prod.fst).Perm (slotsRead i) → (∀ p ∈ slots, SlotWritten (encode i) p.1 p.2) → Blank sp →
    CommentOrEnd tail → assemble (lineText (mnemonicOf i) sp slots ++ tail) = some (encode i)) ∧
  (∀ (line : List Char) (c : Command), assemble line = some c → ∃ i, decode c = .ok i ∧ encode i = c)
end

