-- ==== Sys2Proof/Laws/Decode.lean ====
section
/-! SUPPORT. Laws of the command word's fields (spec 30_encoding.md R61, R69). -/

namespace Sys2Proof

@[simp] theorem rsvOf_commandWord (o : BitVec 8) : rsvOf (commandWord o) = 0 := by
  apply BitVec.eq_of_toNat_eq
  have := o.isLt
  simp [rsvOf, commandWord, Nat.shiftRight_eq_div_pow]
  omega

@[simp] theorem opcOf_commandWord (o : BitVec 8) : opcOf (commandWord o) = o := by
  apply BitVec.eq_of_toNat_eq
  have := o.isLt
  simp [opcOf, commandWord]
  omega

/-- A command word is its reserved bits above its opcode. -/
theorem toNat_fields (cw : Word32) : cw.toNat = 256 * (rsvOf cw).toNat + (opcOf cw).toNat := by
  have := cw.isLt
  simp [rsvOf, opcOf, Nat.shiftRight_eq_div_pow]
  omega

/-- A word whose reserved bits are zero is the command word of its opcode. -/
theorem eq_commandWord {cw : Word32} (h : rsvOf cw = 0) : cw = commandWord (opcOf cw) := by
  apply BitVec.eq_of_toNat_eq
  have h1 := toNat_fields cw
  have h2 := toNat_fields (commandWord (opcOf cw))
  simp_all

/-- Everything a successful decode says: zero reserved bits, and an opcode of the map. -/
theorem decode_eq_ok {c : Command} {i : Instr} :
    decode c = .ok i ↔ rsvOf c.cw = 0 ∧ decodeOpc (opcOf c.cw) c = some i := by
  unfold decode
  split
  · simp_all
  · split <;> simp_all

theorem decode_of_word {c : Command} {o : BitVec 8} (h : c.cw = commandWord o) {i : Instr}
    (hi : decodeOpc o c = some i) : decode c = .ok i :=
  decode_eq_ok.2 ⟨by simp [h], by simpa [h] using hi⟩

/-- The opcode of each instruction's encoding is one of the opcode map. -/
theorem decodeOpc_encode (i : Instr) : decodeOpc (opcOf (encode i).cw) (encode i) = some i := by
  cases i <;> simp [encode, decodeOpc]

/-- The reserved bits of each instruction's encoding are zero. -/
theorem rsvOf_encode (i : Instr) : rsvOf (encode i).cw = 0 := by
  cases i <;> exact rsvOf_commandWord _

end Sys2Proof
end

