-- ==== Sys2Proof/Laws/Assembler.lean ====
section
/-! SUPPORT. What filling the slots of an assembler line can do (spec 30_encoding.md R76): the command word stays, and a slot
that is not named keeps its default. -/

namespace Sys2Proof.Machine

/-- Filling a slot keeps the command word. -/
theorem fillSlot_cw {c d : Command} {n t} (h : fillSlot c n t = some d) : d.cw = c.cw := by
  unfold fillSlot at h
  split at h
  case h_7 => cases h
  all_goals
    simp only [Option.map_eq_some_iff] at h
    obtain ⟨_, _, rfl⟩ := h
    rfl

/-- Slot n holds the same in both commands. -/
def SameSlot (n : SlotName) (c d : Command) : Prop :=
  match n with
  | .w => d.w = c.w | .h => d.h = c.h | .idx => d.idx = c.idx | .pix => d.pix = c.pix | .inp => d.inp = c.inp | .trip => d.trip = c.trip

/-- Filling a slot keeps every other slot. -/
theorem fillSlot_other {c d : Command} {n t} (h : fillSlot c n t = some d) (m : SlotName) (hm : m ≠ n) : SameSlot m c d := by
  unfold fillSlot at h
  split at h
  case h_7 => cases h
  all_goals
    simp only [Option.map_eq_some_iff] at h
    obtain ⟨_, _, rfl⟩ := h
    cases m <;> first | exact absurd rfl hm | rfl

/-- Filling the named slots keeps the command word and every slot that is not named. -/
theorem fillSlots_spec {ps : List (SlotName × SlotText)} {c d : Command} (h : fillSlots c ps = some d) :
    d.cw = c.cw ∧ ∀ m, m ∉ ps.map Prod.fst → SameSlot m c d := by
  induction ps generalizing c with
  | nil => cases h; exact ⟨rfl, fun m _ => by cases m <;> rfl⟩
  | cons p ps ih =>
    obtain ⟨n, t⟩ := p
    simp only [fillSlots] at h
    split at h
    · rename_i c' hc
      obtain ⟨h1, h2⟩ := ih h
      refine ⟨h1.trans (fillSlot_cw hc), fun m hm => ?_⟩
      simp only [List.map_cons, List.mem_cons, not_or] at hm
      have a := fillSlot_other hc m hm.1
      have b := h2 m hm.2
      cases m <;> exact b.trans a
    · cases h

/-- The slots given are slots the opcode reads. -/
theorem slotsMatch_sub {want : List SlotName} {given : List (SlotName × SlotText)} (h : slotsMatch want given = true) (hn : want.Nodup) (m : SlotName) :
    m ∈ given.map Prod.fst → m ∈ want := by
  unfold slotsMatch at h
  simp only [Bool.and_eq_true, beq_iff_eq, List.all_eq_true, List.any_eq_true] at h
  have hs : want ⊆ given.map Prod.fst := by
    intro n hn
    obtain ⟨p, hp, e⟩ := h.2 n hn
    exact List.mem_map.2 ⟨p, hp, e⟩
  have := (List.subperm_of_subset hn hs).perm_of_length_le (by simp [h.1])
  exact this.mem_iff.2

/-! ### Numbers -/

/-- What holds of each of the sixteen digits with its character, in either case, holds of every digit. -/
theorem isDigit_cases {P : Nat → Char → Prop} (hl : ∀ d, (h : d < 16) → P d lowerDigits[d])
    (hu : ∀ d, (h : d < 16) → P d upperDigits[d]) {base d : Nat} {c : Char} (h : IsDigit base c d) : P d c := by
  rcases h.2 with h | h
  · obtain ⟨hd, rfl⟩ := List.getElem?_eq_some_iff.1 h; exact hl d hd
  · obtain ⟨hd, rfl⟩ := List.getElem?_eq_some_iff.1 h; exact hu d hd

theorem digit_wordChar {base d : Nat} {c : Char} (h : IsDigit base c d) : isWordChar c = true :=
  isDigit_cases (P := fun _ c => isWordChar c = true) (by decide) (by decide) h

theorem digitOf_of_isDigit {base d : Nat} {c : Char} (hb : base ≤ 16) (h : IsDigit base c d) : digitOf base c = some d := by
  have key : ∀ base, base ≤ 16 → d < base → digitOf base c = some d :=
    isDigit_cases (P := fun d c => ∀ base, base ≤ 16 → d < base → digitOf base c = some d) (by decide) (by decide) h
  exact key base hb h.1

theorem digitsOf_of_digits {base : Nat} (hb : base ≤ 16) {cs : List Char} {ds : List Nat}
    (h : List.Forall₂ (IsDigit base) cs ds) (acc : Nat) :
    digitsOf base cs acc = some (ds.foldl (fun acc d => acc * base + d) acc) := by
  induction h generalizing acc with
  | nil => rfl
  | cons hd _ ih => simp [digitsOf, digitOf_of_isDigit hb hd, ih]

/-- A number written as R76 says is read as that number. -/
theorem numberOf_text {v : List Char} {n : Nat} (h : NumberText v n) : numberOf v = some n := by
  rcases h with ⟨h0, ds, h, rfl⟩ | ⟨cs, rfl, h0, ds, h, rfl⟩
  · have hx : numberOf v = digitsOf 10 v 0 := by
      unfold numberOf
      split
      · exact absurd rfl h0
      · rename_i c cs
        cases h with | cons _ h => cases h with | cons h _ =>
        have := digitOf_of_isDigit (by decide) h
        simp [digitOf] at this
      · rfl
    rw [hx, digitsOf_of_digits (by decide) h]
  · match cs, h0 with
    | c :: cs, _ => exact digitsOf_of_digits (by decide) h 0

theorem bitsOf_text {k : Nat} {v : List Char} {x : BitVec k} (h : NumberText v x.toNat) : bitsOf k v = some x := by
  simp [bitsOf, numberOf_text h, x.isLt]

/-- A triplet written as R76 says is read as that triplet. -/
theorem tripletOf_text {v : List Char} {p : Word24} (h : TripletText v p) : tripletOf v = some p := by
  obtain ⟨cs, rfl, hl, _, ds, h, hp⟩ := h
  simp [tripletOf, hl, digitsOf_of_digits (by decide) h, ← hp]

theorem mapM_text {α : Type} {P : List Char → α → Prop} {f : List Char → Option α} (hf : ∀ v x, P v x → f v = some x)
    {vs : List (List Char)} {xs : List α} (h : List.Forall₂ P vs xs) : vs.mapM f = some xs := by
  induction h with
  | nil => rfl
  | cons h _ ih => simp [List.mapM_cons, hf _ _ h, ih]

/-! ### Tokens -/

/-- A character that ends a word, or the end of the line. -/
def EndsWord (rest : List Char) : Prop := rest = [] ∨ ∃ c cs, rest = c :: cs ∧ isWordChar c = false

/-- A word is taken whole. -/
theorem tokens_word {cs : List Char} (h : ∀ c ∈ cs, isWordChar c = true) (rest acc : List Char) :
    tokens (cs ++ rest) acc = tokens rest (cs.reverse ++ acc) := by
  induction cs generalizing acc with
  | nil => rfl
  | cons c cs ih =>
    rw [List.cons_append, tokens, if_pos (h c (by simp)), ih fun x hx => h x (by simp [hx])]
    simp

/-- Where a word ends, its token is put out. -/
theorem tokens_flush {rest : List Char} (h : EndsWord rest) {acc : List Char} (ha : acc ≠ []) :
    tokens rest acc = (tokens rest []).map (.word acc.reverse :: ·) := by
  have e : flushWord acc = [.word acc.reverse] := by simp [flushWord, ha]
  rcases h with rfl | ⟨c, cs, rfl, hc⟩
  · simp [tokens, flushWord, ha]
  · have e0 : flushWord [] = [] := rfl
    simp only [tokens, hc, e, e0, Bool.false_eq_true, if_false]
    repeat' split
    all_goals simp [Function.comp_def]

/-- A word before something that ends it. -/
theorem tokens_word_end {cs rest : List Char} (h : ∀ c ∈ cs, isWordChar c = true) (h0 : cs ≠ []) (he : EndsWord rest) :
    tokens (cs ++ rest) [] = (tokens rest []).map (.word cs :: ·) := by
  rw [tokens_word h, List.append_nil, tokens_flush he (by simpa using h0), List.reverse_reverse]

theorem tokens_blank {sp : List Char} (h : Blank sp) (rest : List Char) : tokens (sp ++ rest) [] = tokens rest [] := by
  induction sp with
  | nil => rfl
  | cons c sp ih =>
    have : c = ' ' := h c (by simp)
    subst this
    rw [List.cons_append, tokens]
    simp [flushWord, isWordChar, ih fun x hx => h x (by simp [hx])]

/-- A comment, or nothing, gives no tokens and ends a word. -/
theorem tokens_tail {tail : List Char} (h : CommentOrEnd tail) : tokens tail [] = some [] ∧ EndsWord tail := by
  rcases h with rfl | ⟨sp, cs, hsp, rfl⟩
  · exact ⟨rfl, .inl rfl⟩
  · refine ⟨by rw [tokens_blank hsp]; simp [tokens, isWordChar, flushWord], .inr ?_⟩
    cases sp with
    | nil => exact ⟨_, _, rfl, by decide⟩
    | cons c sp =>
      have : c = ' ' := hsp c (by simp)
      subst this
      exact ⟨_, _, rfl, by decide⟩

/-- A word that is not empty. -/
def WordText (v : List Char) : Prop := v ≠ [] ∧ ∀ c ∈ v, isWordChar c = true

theorem digits_word {base : Nat} {cs : List Char} {n : Nat} (h : Digits base cs n) : WordText cs := by
  obtain ⟨h0, ds, h, -⟩ := h
  refine ⟨h0, ?_⟩
  clear h0
  induction h with
  | nil => simp
  | cons hd _ ih => simpa using ⟨digit_wordChar hd, ih⟩

theorem hex_word {cs : List Char} {n : Nat} (h : Digits 16 cs n) : WordText ('0' :: 'x' :: cs) :=
  ⟨by simp, by simpa using ⟨by decide, by decide, (digits_word h).2⟩⟩

theorem number_word {v : List Char} {n : Nat} (h : NumberText v n) : WordText v := by
  rcases h with h | ⟨cs, rfl, h⟩
  · exact digits_word h
  · exact hex_word h

theorem triplet_word {v : List Char} {p : Word24} (h : TripletText v p) : WordText v := by
  obtain ⟨cs, rfl, -, h⟩ := h
  exact hex_word h

theorem label_word (n : SlotName) : WordText n.label := by
  refine ⟨?_, List.all_eq_true.1 ?_⟩ <;> cases n <;> decide

/-- The tokens of a list's elements, up to its closing bracket. -/
def elemToks : List (List Char) → List Tok
  | [] => [.closing]
  | [v] => [.word v, .closing]
  | v :: vs => .word v :: .comma :: elemToks vs

/-- The tokens of a slot's text. -/
def textToks : SlotText → List Tok
  | .one v => [.word v]
  | .many vs => .opening :: elemToks vs

theorem endsWord_cons {c : Char} (h : isWordChar c = false) (cs : List Char) : EndsWord (c :: cs) := .inr ⟨c, cs, rfl, h⟩

theorem tokens_comma (rest : List Char) : tokens (',' :: rest) [] = (tokens rest []).map (.comma :: ·) := by
  simp [tokens, isWordChar, flushWord]

theorem tokens_eq (rest : List Char) : tokens ('=' :: rest) [] = (tokens rest []).map (.eq :: ·) := by
  simp [tokens, isWordChar, flushWord]

theorem tokens_opening (rest : List Char) : tokens ('[' :: rest) [] = (tokens rest []).map (.opening :: ·) := by
  simp [tokens, isWordChar, flushWord]

theorem tokens_closing (rest : List Char) : tokens (']' :: rest) [] = (tokens rest []).map (.closing :: ·) := by
  simp [tokens, isWordChar, flushWord]

theorem tokens_elems {vs : List (List Char)} (h : ∀ v ∈ vs, WordText v) (rest : List Char) :
    tokens (List.intercalate [','] vs ++ ']' :: rest) [] = (tokens rest []).map (elemToks vs ++ ·) := by
  induction vs with
  | nil => simp [elemToks, tokens_closing]
  | cons v vs ih =>
    obtain ⟨h0, hv⟩ := h v (by simp)
    cases vs with
    | nil =>
      rw [show List.intercalate [','] [v] = v by simp [List.intercalate],
        tokens_word_end hv h0 (endsWord_cons (by decide) _), tokens_closing]
      simp [elemToks, Function.comp_def]
    | cons u vs =>
      rw [show List.intercalate [','] (v :: u :: vs) ++ ']' :: rest =
          v ++ ',' :: (List.intercalate [','] (u :: vs) ++ ']' :: rest) by simp [List.intercalate],
        tokens_word_end hv h0 (endsWord_cons (by decide) _), tokens_comma, ih fun x hx => h x (by simp [hx])]
      simp [elemToks, Function.comp_def]

theorem tokens_listText {vs : List (List Char)} (h : ∀ v ∈ vs, WordText v) (rest : List Char) :
    tokens (listText vs ++ rest) [] = (tokens rest []).map (textToks (.many vs) ++ ·) := by
  rw [show listText vs ++ rest = '[' :: (List.intercalate [','] vs ++ ']' :: rest) by simp [listText], tokens_opening,
    tokens_elems h]
  simp [textToks, Function.comp_def]

/-! ### Slots -/

theorem listElems_toks {vs : List (List Char)} (h : vs ≠ []) (rest : List Tok) :
    listElems (elemToks vs ++ rest) = some (vs, rest) := by
  induction vs with
  | nil => exact absurd rfl h
  | cons v vs ih =>
    cases vs with
    | nil => rfl
    | cons u vs =>
      show (listElems (elemToks (u :: vs) ++ rest)).map (fun p => (v :: p.1, p.2)) = _
      rw [ih (by simp)]; rfl

/-- The tokens of one `name=value` are read back as that name and text. -/
theorem slotText_toks (n : List Char) (t : SlotText) (rest : List Tok) :
    slotText (.word n :: .eq :: (textToks t ++ rest)) = some ((n, t), rest) := by
  cases t with
  | one v => rfl
  | many vs =>
    cases vs with
    | nil => rfl
    | cons v vs =>
      have h := listElems_toks (vs := v :: vs) (by simp) rest
      cases vs with
      | nil => rfl
      | cons u vs =>
        simp only [elemToks, List.cons_append] at h
        simp [slotText, textToks, elemToks, h]

/-- The command c with slot n as it is in e. -/
def copySlot (e : Command) (c : Command) (n : SlotName) : Command :=
  match n with
  | .w => { c with w := e.w }
  | .h => { c with h := e.h }
  | .idx => { c with idx := e.idx }
  | .pix => { c with pix := e.pix }
  | .inp => { c with inp := e.inp }
  | .trip => { c with trip := e.trip }

/-- The text written for a slot's value is read as one slot text, and fills the slot with that value. -/
theorem slotWritten_text {e : Command} {n : SlotName} {v : List Char} (h : SlotWritten e n v) :
    ∃ t : SlotText, (∀ rest, EndsWord rest → tokens (v ++ rest) [] = (tokens rest []).map (textToks t ++ ·)) ∧
      ∀ c, fillSlot c n t = some (copySlot e c n) := by
  have one : WordText v → ∀ rest, EndsWord rest →
      tokens (v ++ rest) [] = (tokens rest []).map (textToks (.one v) ++ ·) :=
    fun hv rest he => tokens_word_end hv.2 hv.1 he
  have all : ∀ {α : Type} {P : List Char → α → Prop} (_ : ∀ u x, P u x → WordText u) {vs : List (List Char)} {xs : List α}
      (_ : List.Forall₂ P vs xs), ∀ u ∈ vs, WordText u := by
    intro α P hP vs xs h
    induction h with
    | nil => simp
    | cons hd _ ih => simpa using ⟨hP _ _ hd, ih⟩
  cases n with
  | w => exact ⟨.one v, one (number_word h), fun c => by simp [fillSlot, bitsOf_text h, copySlot]⟩
  | h => exact ⟨.one v, one (number_word h), fun c => by simp [fillSlot, bitsOf_text h, copySlot]⟩
  | idx => exact ⟨.one v, one (number_word h), fun c => by simp [fillSlot, bitsOf_text h, copySlot]⟩
  | pix => exact ⟨.one v, one (triplet_word h), fun c => by simp [fillSlot, tripletOf_text h, copySlot]⟩
  | inp =>
    obtain ⟨vs, rfl, h⟩ := h
    exact ⟨.many vs, fun rest _ => tokens_listText (all (fun _ _ => number_word) h) rest,
      fun c => by simp [fillSlot, mapM_text (f := bitsOf 8) (fun _ _ => bitsOf_text) h, copySlot]⟩
  | trip =>
    obtain ⟨vs, rfl, h⟩ := h
    exact ⟨.many vs, fun rest _ => tokens_listText (all (fun _ _ => triplet_word) h) rest,
      fun c => by simp [fillSlot, mapM_text (f := tripletOf) (fun _ _ => tripletOf_text) h, copySlot]⟩

/-- The tokens of the slots of a line. -/
def slotsToks : List (SlotName × SlotText) → List Tok
  | [] => []
  | [p] => .word p.1.label :: .eq :: textToks p.2
  | p :: ps => .word p.1.label :: .eq :: (textToks p.2 ++ .comma :: slotsToks ps)

/-- The slots of a well-written line: their tokens, and the command they fill in. -/
theorem slots_written {e : Command} {sp tail : List Char} (hsp : Blank sp) (ht : CommentOrEnd tail)
    {slots : List (SlotName × List Char)} (h : ∀ p ∈ slots, SlotWritten e p.1 p.2) :
    ∃ ps : List (SlotName × SlotText), ps.map Prod.fst = slots.map Prod.fst ∧
      tokens (slotsText sp slots ++ tail) [] = some (slotsToks ps) ∧
      ∀ c, fillSlots c ps = some ((slots.map Prod.fst).foldl (copySlot e) c) := by
  induction slots with
  | nil => exact ⟨[], rfl, by simpa [slotsText, List.intercalate, slotsToks] using (tokens_tail ht).1, fun c => rfl⟩
  | cons p slots ih =>
    obtain ⟨n, v⟩ := p
    obtain ⟨t, h1, h2⟩ := slotWritten_text (h (n, v) (by simp))
    obtain ⟨ps, h3, h4, h5⟩ := ih fun q hq => h q (by simp [hq])
    have hl := label_word n
    refine ⟨(n, t) :: ps, by simp [h3], ?_, fun c => by simp [fillSlots, h2, h5]⟩
    cases slots with
    | nil =>
      have : ps = [] := by simpa using h3
      subst this
      rw [show slotsText sp [(n, v)] ++ tail = n.label ++ '=' :: (v ++ tail) by simp [slotsText, List.intercalate],
        tokens_word_end hl.2 hl.1 (endsWord_cons (by decide) _), tokens_eq, h1 _ (tokens_tail ht).2, (tokens_tail ht).1]
      simp [slotsToks]
    | cons q slots =>
      match ps, h3 with
      | r :: ps, _ =>
        rw [show slotsText sp ((n, v) :: q :: slots) ++ tail =
            n.label ++ '=' :: (v ++ ',' :: (sp ++ (slotsText sp (q :: slots) ++ tail))) by simp [slotsText, List.intercalate],
          tokens_word_end hl.2 hl.1 (endsWord_cons (by decide) _), tokens_eq, h1 _ (endsWord_cons (by decide) _),
          tokens_comma, tokens_blank hsp, h4]
        simp [slotsToks]

theorem slotTexts_toks {ps : List (SlotName × SlotText)} (h : ps ≠ []) {fuel : Nat} (hf : ps.length ≤ fuel) :
    slotTexts fuel (slotsToks ps) = some (ps.map fun p => (p.1.label, p.2)) := by
  induction ps generalizing fuel with
  | nil => exact absurd rfl h
  | cons p ps ih =>
    cases fuel with
    | zero => simp at hf
    | succ fuel =>
      cases ps with
      | nil =>
        have := slotText_toks p.1.label p.2 []
        rw [List.append_nil] at this
        simp [slotTexts, slotsToks, this]
      | cons q ps =>
        simp only [slotTexts, slotsToks, slotText_toks]
        rw [ih (by simp) (by simpa using hf)]
        rfl

theorem slotsToks_length (ps : List (SlotName × SlotText)) : ps.length ≤ (slotsToks ps).length := by
  induction ps with
  | nil => simp
  | cons p ps ih => cases ps <;> simp [slotsToks] at ih ⊢; omega

theorem namedSlots_labels (ps : List (SlotName × SlotText)) : namedSlots (ps.map fun p => (p.1.label, p.2)) = some ps := by
  induction ps with
  | nil => rfl
  | cons p ps ih =>
    have : slotNameOf p.1.label = some p.1 := by cases p.1 <;> rfl
    simp [namedSlots, this, ih]

/-- The slots after a mnemonic are read back from their tokens. -/
theorem lineSlots_toks (ps : List (SlotName × SlotText)) : (lineSlots (slotsToks ps)).bind namedSlots = some ps := by
  cases ps with
  | nil => rfl
  | cons p ps =>
    have h0 : (slotsToks (p :: ps)).isEmpty = false := by cases ps <;> rfl
    rw [lineSlots, h0, if_neg (by decide), slotTexts_toks (by simp) (slotsToks_length _)]
    exact namedSlots_labels _

/-- Slots named once each, in any order, are the slots the opcode reads. -/
theorem slotsMatch_perm {want : List SlotName} {ps : List (SlotName × SlotText)} (h : (ps.map Prod.fst).Perm want) :
    slotsMatch want ps = true := by
  have hl : ps.length = want.length := by simpa using h.length_eq
  simp only [slotsMatch, hl, beq_self_eq_true, Bool.true_and, List.all_eq_true, List.any_eq_true, beq_iff_eq]
  intro n hn
  obtain ⟨p, hp, e⟩ := List.mem_map.1 (h.mem_iff.2 hn)
  exact ⟨p, hp, e⟩

/-- Copying slots one after the other: the command word stays, and a slot is that of e exactly where it was named. -/
theorem foldl_copySlot (e : Command) (ns : List SlotName) (c : Command) :
    ns.foldl (copySlot e) c =
      { cw := c.cw, w := if .w ∈ ns then e.w else c.w, h := if .h ∈ ns then e.h else c.h,
        idx := if .idx ∈ ns then e.idx else c.idx, pix := if .pix ∈ ns then e.pix else c.pix,
        inp := if .inp ∈ ns then e.inp else c.inp, trip := if .trip ∈ ns then e.trip else c.trip } := by
  induction ns generalizing c with
  | nil => simp
  | cons n ns ih =>
    rw [List.foldl_cons, ih]
    cases n <;> simp [copySlot]

/-- The table's row for an instruction's mnemonic. -/
theorem asmTable_mnemonic (i : Instr) :
    asmTable.find? (fun row => row.1 == mnemonicOf i) = some (mnemonicOf i, opcOf (encode i).cw, slotsRead i) := by
  cases i <;> rfl

theorem mnemonic_word (i : Instr) : WordText (mnemonicOf i) := by
  have hall : ∀ row ∈ asmTable, row.1 ≠ [] ∧ row.1.all isWordChar = true := by decide
  have h := hall _ (List.mem_of_find?_eq_some (asmTable_mnemonic i))
  exact ⟨h.1, List.all_eq_true.1 h.2⟩

end Sys2Proof.Machine
end

