-- ==== Sys2Proof/Laws/Bytes.lean ====
section
/-! SUPPORT. Laws of the byte sequences: the big-endian encoding and its inverse (spec 00_scope.md R11). -/

namespace Sys2Proof.Machine

@[simp] theorem be_length (n v : Nat) : (be n v).length = n := by
  induction n with
  | zero => rfl
  | succ n ih => simp [be, ih]

/-- The encoding reads only the low 8n bits of the number. -/
theorem be_mod (n v : Nat) : be n (v % 256 ^ n) = be n v := by
  suffices h : ∀ n k v, n ≤ k → be n (v % 256 ^ k) = be n v from h n n v le_rfl
  intro n
  induction n with
  | zero => intros; rfl
  | succ n ih =>
    intro k v hk
    have hpow : (256 : Nat) ^ k = 256 ^ n * (256 * 256 ^ (k - n - 1)) := by
      rw [← pow_succ', ← pow_add]; congr 1; omega
    rw [be, be, ih k v (by omega)]
    congr 1
    apply BitVec.eq_of_toNat_eq
    rw [BitVec.toNat_ofNat, BitVec.toNat_ofNat, hpow, Nat.mod_mul_right_div_self, Nat.mod_mul_right_mod]

/-- fromBE read from the left with an accumulator. -/
theorem foldl_fromBE (s : List Byte) (acc : Nat) :
    s.foldl (fun acc b => acc * 256 + b.toNat) acc = acc * 256 ^ s.length + fromBE s := by
  induction s generalizing acc with
  | nil => simp [fromBE]
  | cons b s ih =>
    have hb : fromBE (b :: s) = (0 * 256 + b.toNat) * 256 ^ s.length + fromBE s := ih _
    rw [List.foldl_cons, ih, hb, List.length_cons, pow_succ]
    ring

@[simp] theorem fromBE_nil : fromBE [] = 0 := rfl

theorem fromBE_cons (b : Byte) (s : List Byte) : fromBE (b :: s) = b.toNat * 256 ^ s.length + fromBE s := by
  simpa [fromBE] using foldl_fromBE s b.toNat

theorem fromBE_lt (s : List Byte) : fromBE s < 256 ^ s.length := by
  induction s with
  | nil => simp
  | cons b s ih =>
    rw [fromBE_cons, List.length_cons, pow_succ]
    have hb := b.isLt
    nlinarith [Nat.one_le_pow s.length 256 (by norm_num)]

/-- `fromBE` undoes `BE_n` on the numbers it encodes. -/
theorem fromBE_be (n v : Nat) (h : v < 256 ^ n) : fromBE (be n v) = v := by
  induction n generalizing v with
  | zero => simp at h; simp [be, h]
  | succ n ih =>
    have hpos : (0 : Nat) < 256 ^ n := by positivity
    have hq : v / 256 ^ n < 256 := by
      rw [Nat.div_lt_iff_lt_mul hpos]; rw [pow_succ] at h; linarith
    rw [be, fromBE_cons, be_length, ← be_mod n v, ih _ (Nat.mod_lt _ hpos), BitVec.toNat_ofNat,
      Nat.mod_eq_of_lt (by simpa using hq), Nat.div_add_mod']

/-- `BE_n` undoes `fromBE` on n bytes. -/
theorem be_fromBE (s : List Byte) : be s.length (fromBE s) = s := by
  induction s with
  | nil => rfl
  | cons b s ih =>
    have hpos : (0 : Nat) < 256 ^ s.length := by positivity
    have hlt := fromBE_lt s
    rw [List.length_cons, be, fromBE_cons]
    congr 1
    · apply BitVec.eq_of_toNat_eq
      rw [BitVec.toNat_ofNat, Nat.add_comm, Nat.add_mul_div_right _ _ hpos, Nat.div_eq_of_lt hlt]
      simpa using Nat.mod_eq_of_lt b.isLt
    · rw [← be_mod, Nat.mul_comm, Nat.mul_add_mod, Nat.mod_eq_of_lt hlt, ih]

theorem be_fromBE_of_length {s : List Byte} {n : Nat} (h : s.length = n) : be n (fromBE s) = s := h ▸ be_fromBE s

theorem be_inj {n v w : Nat} (hv : v < 256 ^ n) (hw : w < 256 ^ n) (h : be n v = be n w) : v = w := by
  rw [← fromBE_be n v hv, h, fromBE_be n w hw]

@[simp] theorem slice_length (s : List Byte) (a b : Nat) : (slice s a b).length = min (b - a) (s.length - a) := by
  simp [slice]

/-- Two bytes read as a big-endian number are the two bytes one after the other. -/
theorem fromBE_two (hi lo : Byte) : BitVec.ofNat 16 (fromBE [hi, lo]) = hi ++ lo := by
  apply BitVec.eq_of_toNat_eq
  have := hi.isLt; have := lo.isLt
  rw [BitVec.toNat_append, BitVec.toNat_ofNat, fromBE_cons, fromBE_cons, fromBE_nil]
  simp only [List.length_cons, List.length_nil]
  rw [← Nat.shiftLeft_add_eq_or_of_lt lo.isLt, Nat.shiftLeft_eq]
  omega

/-- The two-byte encoding of a 16-bit value: high byte, low byte. -/
theorem be_two (c : Word16) : be 2 c.toNat = [c.extractLsb' 8 8, c.extractLsb' 0 8] := by
  have := c.isLt
  simp only [be]
  congr 1
  · apply BitVec.eq_of_toNat_eq; simp [Nat.shiftRight_eq_div_pow]
  · congr 1
    apply BitVec.eq_of_toNat_eq; simp

theorem ofNat_fromBE_be_two (c : Word16) : BitVec.ofNat 16 (fromBE (be 2 c.toNat)) = c := by
  rw [fromBE_be _ _ (by simpa using c.isLt)]; simp

/-- A checksum widened to 32 bits is written as two zero bytes and its own two bytes (20_memory.md R45). -/
theorem be4 (c : Word16) : be 4 (c.setWidth 32).toNat = [0, 0] ++ be 2 c.toNat := by
  have := c.isLt
  have e : (c.setWidth 32).toNat = c.toNat := by simp; omega
  rw [e]
  simp [be, Nat.div_eq_of_lt (show c.toNat < 16777216 by omega), Nat.div_eq_of_lt (show c.toNat < 65536 by omega)]

theorem pow256 (n : Nat) : (256 : Nat) ^ n = 2 ^ (8 * n) := by rw [pow_mul]; norm_num

/-- A header record cut at the offsets of 30_encoding.md R74. -/
theorem slice_full {s : List Byte} (h : s.length = 30) :
    s = slice s 0 10 ++ slice s 10 18 ++ slice s 18 26 ++ slice s 26 30 := by
  have e1 : slice s 0 10 = s.take 10 := by simp [slice]
  have e2 : slice s 26 30 = s.drop 26 := by simp [slice, h]
  have e3 : slice s 18 26 ++ s.drop 26 = s.drop 18 := by
    rw [slice, show s.drop 26 = (s.drop 18).drop 8 by simp, List.take_append_drop]
  have e4 : slice s 10 18 ++ s.drop 18 = s.drop 10 := by
    rw [slice, show s.drop 18 = (s.drop 10).drop 8 by simp, List.take_append_drop]
  rw [List.append_assoc, List.append_assoc, e2, e3, e4, e1, List.take_append_drop]

/-- The cuts of a record put together from its four fields. -/
theorem slice_split {m wb hb cb : List Byte} (hm : m.length = 10) (hw : wb.length = 8) (hh : hb.length = 8) (hc : cb.length = 4) :
    slice (m ++ wb ++ hb ++ cb) 0 10 = m ∧ slice (m ++ wb ++ hb ++ cb) 10 18 = wb ∧
    slice (m ++ wb ++ hb ++ cb) 18 26 = hb ∧ slice (m ++ wb ++ hb ++ cb) 26 30 = cb ∧
    slice (m ++ wb ++ hb ++ cb) 10 26 = wb ++ hb := by
  refine ⟨?_, ?_, ?_, ?_, ?_⟩ <;> simp [slice, List.drop_append, List.take_append, hm, hw, hh, hc, List.take_of_length_le, List.drop_of_length_le]

/-- Every 30 bytes are the four fields of a header record. -/
theorem parts_exist {s : List Byte} (h : s.length = 30) : ∃ m wb hb cb : List Byte, m.length = 10 ∧ wb.length = 8 ∧ hb.length = 8 ∧ cb.length = 4 ∧ s = m ++ wb ++ hb ++ cb :=
  ⟨slice s 0 10, slice s 10 18, slice s 18 26, slice s 26 30, by simp [h], by simp [h], by simp [h], by simp [h], slice_full h⟩

end Sys2Proof.Machine
end

