-- ==== Sys2Proof/Laws/Checksum.lean ====
section
/-! SUPPORT. Laws of the Checksum-16 engine (spec 40_checksum.md R90, R91). -/

namespace Sys2Proof.Machine

@[simp] theorem ckRun_nil (e : CkEngine) : ckRun e [] = e := rfl
@[simp] theorem ckRun_cons (e : CkEngine) (b : Byte) (s : List Byte) : ckRun e (b :: s) = ckRun (ckStep e b) s := rfl

theorem ckRun_append (e : CkEngine) (s t : List Byte) : ckRun e (s ++ t) = ckRun (ckRun e s) t := by
  simp [ckRun, List.foldl_append]

@[simp] theorem ck_nil : ck [] = 0 := rfl

/-- The accumulator after one more byte. -/
theorem ckStep_acc (e : CkEngine) (b : Byte) : (ckStep e b).acc = e.acc + (b ^^^ e.prev).setWidth 16 := rfl

theorem ckStep_acc_toNat (e : CkEngine) (b : Byte) :
    (ckStep e b).acc.toNat = (e.acc.toNat + (b ^^^ e.prev).toNat) % 65536 := by
  rw [ckStep_acc, BitVec.toNat_add, BitVec.toNat_setWidth,
    Nat.mod_eq_of_lt (a := (b ^^^ e.prev).toNat) (lt_trans (b ^^^ e.prev).isLt (by norm_num))]

/-- One byte raises the accumulator by less than 256, if it does not wrap. -/
theorem ckStep_acc_le (e : CkEngine) (b : Byte) : (ckStep e b).acc.toNat ≤ e.acc.toNat + 255 := by
  rw [ckStep_acc_toNat]
  have := (b ^^^ e.prev).isLt
  exact le_trans (Nat.mod_le _ _) (by omega)

/-- The last byte's contribution to the checksum is the exclusive or with PREV, zero-extended. -/
theorem ck_concat (s : List Byte) (b : Byte) :
    ck (s ++ [b]) = ck s + (b ^^^ (ckRun ckSeed s).prev).setWidth 16 := by
  rw [ck, ckRun_append]; rfl

end Sys2Proof.Machine
end

