-- ==== Sys2Proof/Laws/Records.lean ====
section
/-! SUPPORT. Laws of the chunk and header records and of the record split (spec 41_pixel_chunk.md, 42_header.md,
43_container.md R140, R151). -/

namespace Sys2Proof.Machine

@[simp] theorem tripBytes_length (r g b : Byte) : (tripBytes r g b).length = 3 := rfl
@[simp] theorem chunkRec_length (r g b : Byte) : (chunkRec r g b).length = 5 := by simp [chunkRec]
@[simp] theorem record_length (e : Chunk) : e.record.length = 5 := by simp [Chunk.record]
@[simp] theorem magic_length : magic.length = 10 := rfl
@[simp] theorem hdrRec_length (w h : Word64) : (hdrRec w h).length = 30 := by simp [hdrRec]

@[simp] theorem entry_r (r g b : Byte) : (entry r g b).r = r := rfl
@[simp] theorem entry_g (r g b : Byte) : (entry r g b).g = g := rfl
@[simp] theorem entry_b (r g b : Byte) : (entry r g b).b = b := rfl
theorem entry_valid (r g b : Byte) : (entry r g b).valid := rfl
theorem entryOfPix_valid (p : Word24) : (entryOfPix p).valid := rfl
theorem mkHeader_valid (w h : Word64) : (mkHeader w h).valid := rfl

/-- An entry is the one its triplet constructs exactly when it satisfies the chunk invariant. -/
theorem entry_of_valid {e : Chunk} (h : e.valid) : e = entry e.r e.g e.b := by
  cases e; simp_all [Chunk.valid, entry]

/-- 41_pixel_chunk.md R103: a valid entry's record is the record of its triplet. -/
theorem record_of_valid {e : Chunk} (h : e.valid) : e.record = chunkRec e.r e.g e.b := by
  rw [Chunk.record, chunkRec, ← h]

@[simp] theorem entry_record (r g b : Byte) : (entry r g b).record = chunkRec r g b := rfl

/-! ### The payload -/

@[simp] theorem reencode_nil : reencode [] = [] := rfl
@[simp] theorem reencode_cons (e : Chunk) (es : List Chunk) : reencode (e :: es) = e.record ++ reencode es := rfl
@[simp] theorem reencode_append (xs ys : List Chunk) : reencode (xs ++ ys) = reencode xs ++ reencode ys := by
  simp [reencode]

@[simp] theorem reencode_length (es : List Chunk) : (reencode es).length = 5 * es.length := by
  induction es with
  | nil => rfl
  | cons e es ih => simp [ih]; ring

/-! ### The record split -/

/-- A full record at the front is the first one of the split. -/
theorem split5_cons {r : List Byte} (h : r.length = 5) (rest : List Byte) : split5 (r ++ rest) = r :: split5 rest := by
  match r, h with
  | [_, _, _, _, _], _ => rfl

theorem split5_short {s : List Byte} (h0 : s ≠ []) (h : s.length < 5) : split5 s = [s] := by
  rcases s with _ | ⟨a, _ | ⟨b, _ | ⟨c, _ | ⟨d, _ | ⟨e, s⟩⟩⟩⟩⟩
  · exact absurd rfl h0
  all_goals first | rfl | (simp at h; omega)

/-- The induction of the record split: no byte, one short record, or a full record in front. -/
theorem split5_induction {motive : List Byte → Prop} (nil : motive [])
    (short : ∀ s, s ≠ [] → s.length < 5 → motive s)
    (full : ∀ r rest, r.length = 5 → motive rest → motive (r ++ rest)) (s : List Byte) : motive s := by
  induction s using split5.induct with
  | case1 => exact nil
  | case2 a b c d e rest ih => exact full [a, b, c, d, e] rest rfl ih
  | case3 s h0 h5 =>
    refine short s h0 ?_
    rcases s with _ | ⟨a, _ | ⟨b, _ | ⟨c, _ | ⟨d, _ | ⟨e, rest⟩⟩⟩⟩⟩
    case cons.cons.cons.cons.cons => exact (h5 a b c d e rest rfl).elim
    all_goals simp

theorem split5_reencode (es : List Chunk) : split5 (reencode es) = es.map Chunk.record := by
  induction es with
  | nil => rfl
  | cons e es ih => rw [reencode_cons, split5_cons (record_length e), ih, List.map_cons]

/-! ### Decoding records -/

theorem chunkDec_length {s : List Byte} (h : s.length ≠ 5) : chunkDec s = .error .invalidLength := by
  match s, h with
  | [], _ | [_], _ | [_, _], _ | [_, _, _], _ | [_, _, _, _], _ => rfl
  | [_, _, _, _, _], h => simp at h
  | _ :: _ :: _ :: _ :: _ :: _ :: _, _ => rfl

/-- Everything `CHUNK_DEC` can do with five bytes. -/
theorem chunkDec_five (r g b hi lo : Byte) :
    chunkDec [r, g, b, hi, lo] =
      if ck [r, g, b] = BitVec.ofNat 16 (fromBE [hi, lo]) then .ok (entry r g b) else .error .checksumMismatch := by
  by_cases h : ck [r, g, b] = BitVec.ofNat 16 (fromBE [hi, lo])
  · simp [chunkDec, ← h, entry, tripBytes]
  · simp [chunkDec, h]

@[simp] theorem decodeRecs_nil : decodeRecs [] = .ok [] := rfl

theorem decodeRecs_cons (s : List Byte) (rest : List (List Byte)) :
    decodeRecs (s :: rest) =
      match chunkDec s with
      | .error k => .error k
      | .ok e => match decodeRecs rest with
        | .error k => .error k
        | .ok es => .ok (e :: es) := rfl

/-- The decoded chunks are one for each record. -/
theorem decodeRecs_length {recs : List (List Byte)} {es : List Chunk} (h : decodeRecs recs = .ok es) :
    es.length = recs.length := by
  induction recs generalizing es with
  | nil => simp at h; simp [← h]
  | cons s rest ih =>
    rw [decodeRecs_cons] at h
    split at h
    · cases h
    · split at h
      · cases h
      · rename_i es' hes
        cases h
        simp [ih hes]

/-- A chunk record can fail to decode in two ways only. -/
theorem chunkDec_err {s : List Byte} {k : ErrKind} (h : chunkDec s = .error k) :
    (s.length ≠ 5 ∧ k = .invalidLength) ∨ (s.length = 5 ∧ k = .checksumMismatch) := by
  by_cases hl : s.length = 5
  · right; refine ⟨hl, ?_⟩
    match s, hl with
    | [r, g, b, hi, lo], _ =>
      rw [chunkDec_five] at h
      split at h <;> cases h; rfl
  · rw [chunkDec_length hl] at h; cases h; exact Or.inl ⟨hl, rfl⟩

theorem decodeRecs_err {recs : List (List Byte)} {k : ErrKind} (h : decodeRecs recs = .error k) :
    k = .invalidLength ∨ k = .checksumMismatch := by
  induction recs with
  | nil => cases h
  | cons s rest ih =>
    rw [decodeRecs_cons] at h
    split at h
    · rename_i k' hk; cases h
      rcases chunkDec_err hk with ⟨_, h⟩ | ⟨_, h⟩ <;> simp [h]
    · split at h
      · rename_i hk; cases h; exact ih hk
      · cases h

/-- The first record that fails decides (43_container.md R153). -/
theorem decodeRecs_first_err {recs : List (List Byte)} {j : Nat} {s : List Byte} {e : ErrKind} (hj : recs[j]? = some s) (he : chunkDec s = .error e)
    (hb : ∀ i, i < j → ∀ s, recs[i]? = some s → ∃ x, chunkDec s = .ok x) : decodeRecs recs = .error e := by
  induction recs generalizing j with
  | nil => simp at hj
  | cons r rest ih =>
    cases j with
    | zero => simp at hj; subst hj; rw [decodeRecs_cons, he]
    | succ j =>
      obtain ⟨x, hx⟩ := hb 0 (by omega) r (by simp)
      rw [decodeRecs_cons, hx, ih (by simpa using hj) (fun i hi s hs => hb (i+1) (by omega) s (by simpa using hs))]

theorem decodeRecs_all_ok {recs : List (List Byte)} {es : List Chunk} (hl : es.length = recs.length)
    (h : ∀ (j : Nat) (x : Chunk) s, es[j]? = some x → recs[j]? = some s → chunkDec s = .ok x) : decodeRecs recs = .ok es := by
  induction recs generalizing es with
  | nil => simp at hl; subst hl; rfl
  | cons r rest ih =>
    cases es with
    | nil => simp at hl
    | cons e es =>
      rw [decodeRecs_cons, h 0 e r (by simp) (by simp), ih (by simpa using hl) (fun j x s h1 h2 => h (j+1) x s (by simpa using h1) (by simpa using h2))]

/-! ### The record split and the payload -/

theorem split5_flatten (s : List Byte) : (split5 s).flatten = s := by
  induction s using split5_induction with
  | nil => rfl
  | short s h0 h => simp [split5_short h0 h]
  | full r rest h ih => simp [split5_cons h, ih]

theorem reencode_take (es : List Chunk) (i : Nat) : reencode (es.take i) = (reencode es).take (5 * i) := by
  induction es generalizing i with
  | nil => simp
  | cons e es ih =>
    cases i with
    | zero => simp
    | succ i => rw [List.take_succ_cons, reencode_cons, reencode_cons, ih, List.take_append, record_length,
                  List.take_of_length_le (l := e.record) (by simp), show 5 * (i + 1) - 5 = 5 * i by omega]

theorem reencode_drop (es : List Chunk) (i : Nat) : reencode (es.drop i) = (reencode es).drop (5 * i) := by
  induction es generalizing i with
  | nil => simp
  | cons e es ih =>
    cases i with
    | zero => simp
    | succ i => rw [List.drop_succ_cons, reencode_cons, ih, List.drop_append, record_length,
                  List.drop_of_length_le (l := e.record) (by simp), show 5 * (i + 1) - 5 = 5 * i by omega, List.nil_append]

/-! ### Header records -/

/-- The fields of a header record the block writes. -/
theorem hdr_parts_take (w h : Word64) : (hdrRec w h).take 10 = magic ∧ ((hdrRec w h).drop 10).take 8 = be 8 w.toNat ∧ ((hdrRec w h).drop 18).take 8 = be 8 h.toNat ∧ (hdrRec w h).drop 26 = be 4 (hdrCk w h).toNat ∧ ((hdrRec w h).drop 10).take 16 = be 8 w.toNat ++ be 8 h.toNat := by
  obtain ⟨a1, a2, a3, a4, a5⟩ := slice_split (m := magic) (wb := be 8 w.toNat) (hb := be 8 h.toNat) (cb := be 4 (hdrCk w h).toNat) rfl (by simp) (by simp) (by simp)
  refine ⟨a1, a2, a3, ?_, a5⟩
  rw [← a4, slice, ← hdrRec, List.take_of_length_le]; simp

/-- The header decoder on four fields, its checks in order (42_header.md R122). -/
theorem hdrDec_parts {m wb hb cb : List Byte} (hm : m.length = 10) (hw : wb.length = 8) (hh : hb.length = 8) (hc : cb.length = 4) :
    hdrDec (m ++ wb ++ hb ++ cb) =
      if m ≠ magic then .error .illegalHeader
      else if (ck (wb ++ hb)).toNat ≠ fromBE cb then .error .checksumMismatch
      else .ok { w := BitVec.ofNat 64 (fromBE wb), h := BitVec.ofNat 64 (fromBE hb), ck := BitVec.ofNat 32 (fromBE cb) } := by
  obtain ⟨h1, h2, h3, h4, h5⟩ := slice_split hm hw hh hc
  have hlen : (m ++ wb ++ hb ++ cb).length = 30 := by simp [hm, hw, hh, hc]
  unfold hdrDec
  rw [if_neg (not_not.2 hlen), h1, h2, h3, h4, h5]
  simp only [toWord64, hw, hh, if_true]
  have hcb := fromBE_lt cb
  rw [hc] at hcb
  have key : ((ck (wb ++ hb)).setWidth 32 ≠ BitVec.ofNat 32 (fromBE cb)) ↔ ((ck (wb ++ hb)).toNat ≠ fromBE cb) := by
    rw [not_iff_not, ← BitVec.toNat_inj]
    have := (ck (wb ++ hb)).isLt
    simp at hcb ⊢
    omega
  simp only [key]

/-- Encoding the numbers read from a record whose checksum agrees gives the record back. -/
theorem hdrRec_fromBE {wb hb cb : List Byte} (hw : wb.length = 8) (hh : hb.length = 8) (hc : cb.length = 4) (hk : (ck (wb ++ hb)).toNat = fromBE cb) :
    hdrRec (BitVec.ofNat 64 (fromBE wb)) (BitVec.ofNat 64 (fromBE hb)) = magic ++ wb ++ hb ++ cb ∧ hdrCk (BitVec.ofNat 64 (fromBE wb)) (BitVec.ofNat 64 (fromBE hb)) = BitVec.ofNat 32 (fromBE cb) := by
  have h1 := fromBE_lt wb; have h2 := fromBE_lt hb; have h3 := fromBE_lt cb
  rw [hw] at h1; rw [hh] at h2; rw [hc] at h3
  have hck : hdrCk (BitVec.ofNat 64 (fromBE wb)) (BitVec.ofNat 64 (fromBE hb)) = BitVec.ofNat 32 (fromBE cb) := by
    unfold hdrCk
    rw [BitVec.toNat_ofNat, BitVec.toNat_ofNat, Nat.mod_eq_of_lt (by simpa using h1), Nat.mod_eq_of_lt (by simpa using h2), be_fromBE_of_length hw, be_fromBE_of_length hh]
    apply BitVec.eq_of_toNat_eq
    rw [BitVec.toNat_setWidth, hk, BitVec.toNat_ofNat]
  refine ⟨?_, hck⟩
  unfold hdrRec
  rw [hck, BitVec.toNat_ofNat, BitVec.toNat_ofNat, BitVec.toNat_ofNat, Nat.mod_eq_of_lt (by simpa using h1), Nat.mod_eq_of_lt (by simpa using h2), Nat.mod_eq_of_lt (by simpa using h3), be_fromBE_of_length hw, be_fromBE_of_length hh, be_fromBE_of_length hc]

/-- A header record can fail to decode in three ways only. -/
theorem hdrDec_err {s : List Byte} {k : ErrKind} (h : hdrDec s = .error k) :
    (s.length ≠ 30 ∧ k = .invalidLength) ∨ (s.length = 30 ∧ k = .illegalHeader) ∨ (s.length = 30 ∧ k = .checksumMismatch) := by
  by_cases hl : s.length = 30
  · obtain ⟨m, wb, hb, cb, hm, hw, hh, hc, rfl⟩ := parts_exist hl
    rw [hdrDec_parts hm hw hh hc] at h
    split at h
    · cases h; exact Or.inr (Or.inl ⟨hl, rfl⟩)
    · split at h <;> cases h; exact Or.inr (Or.inr ⟨hl, rfl⟩)
  · simp [hdrDec, hl] at h; exact Or.inl ⟨hl, h.symm⟩


end Sys2Proof.Machine
end

