-- ==== Sys2Proof/Laws/State.lean ====
section
/-! SUPPORT. One lemma for each field of State under each named update, so that no proof unfolds a record update. -/

namespace Sys2Proof.Machine

/-! ### `State.answer` -/

section Answer
variable (s : State) (b : Bool) (r : Response)

@[simp] theorem answer_resp : (s.answer b r).resp = some r := rfl
@[simp] theorem answer_slot : (s.answer b r).slot = s.slot := rfl
@[simp] theorem answer_cfg : (s.answer b r).cfg = s.cfg := rfl
@[simp] theorem answer_host : (s.answer b r).host = s.host := rfl
@[simp] theorem answer_draws : (s.answer b r).draws = s.draws + 1 := rfl
@[simp] theorem answer_engine : (s.answer b r).engine = engineAfter b s := rfl

end Answer

@[simp] theorem engineAfter_false (s : State) : engineAfter false s = s.engine := rfl

/-! ### `State.load` -/

section Load
variable (s : State) (c : Container)

@[simp] theorem load_slot : (s.load c).slot = some c := rfl
@[simp] theorem load_cfg : (s.load c).cfg = s.cfg := rfl
@[simp] theorem load_engine : (s.load c).engine = s.engine := rfl
@[simp] theorem load_resp : (s.load c).resp = s.resp := rfl
@[simp] theorem load_host : (s.load c).host = s.host := rfl
@[simp] theorem load_draws : (s.load c).draws = s.draws := rfl

end Load

/-! ### `applyReset`, `idle` and the state after reset -/

section Reset
variable (s : State)

@[simp] theorem applyReset_slot : (applyReset s).slot = none := rfl
@[simp] theorem applyReset_resp : (applyReset s).resp = none := rfl
@[simp] theorem applyReset_engine : (applyReset s).engine = ckSeed := rfl
@[simp] theorem applyReset_cfg : (applyReset s).cfg = s.cfg := rfl
@[simp] theorem applyReset_host : (applyReset s).host = s.host := rfl
@[simp] theorem applyReset_draws : (applyReset s).draws = s.draws := rfl
@[simp] theorem idle_eq : idle s = s := rfl

end Reset

@[simp] theorem reset_slot : State.reset.slot = none := rfl
@[simp] theorem reset_resp : State.reset.resp = none := rfl
@[simp] theorem reset_cfg : State.reset.cfg = Config.unlimited := rfl
@[simp] theorem reset_host : State.reset.host = [] := rfl

/-! ### `State.take` and `State.withFetchWord` -/

theorem take_nil {s : State} (h : s.host = []) : s.take = none := by
  simp [State.take, h]

theorem take_cons {s : State} {a : HostAct} {rest : List HostAct} (h : s.host = a :: rest) :
    s.take = some (a, { s with host := rest }) := by
  simp [State.take, h]

@[simp] theorem withFetchWord_host (s : State) (n w : Nat) :
    (s.withFetchWord n w).host = .issue (tableCommand n w) :: s.host := rfl
@[simp] theorem withFetchWord_slot (s : State) (n w : Nat) : (s.withFetchWord n w).slot = s.slot := rfl
@[simp] theorem withFetchWord_cfg (s : State) (n w : Nat) : (s.withFetchWord n w).cfg = s.cfg := rfl

end Sys2Proof.Machine
end

