-- ==== Sys2Proof/Laws/Ops.lean ====
section
/-! SUPPORT. What the shared operations of a command can do, said once: how it ends, and its guards. -/

namespace Sys2Proof.Machine

/-! ### How a command ends -/

@[simp] theorem finish_eq_next {s t : State} {b : Bool} {r : Response} :
    finish s b r = .next t ↔ t = s.answer b r := by
  simp [finish, eq_comm]

@[simp] theorem finish_ne_fault (s : State) (b : Bool) (r : Response) (f : Fault) : finish s b r ≠ .fault f := by
  simp [finish]

@[simp] theorem finish_ne_refused (s : State) (b : Bool) (r : Response) (q : Refusal) : finish s b r ≠ .refused q := by
  simp [finish]

/-- Everything a raised error does: the code in the response, and nothing else but the checksum registers and the
model's counter. -/
theorem raise_eq_next {s t : State} {b : Bool} {k : ErrKind} :
    raise s b k = .next t ↔ t = s.answer b (errResponse k s.draws) := by
  simp [raise]

@[simp] theorem raise_ne_fault (s : State) (b : Bool) (k : ErrKind) (f : Fault) : raise s b k ≠ .fault f := by
  simp [raise]

@[simp] theorem raise_ne_refused (s : State) (b : Bool) (k : ErrKind) (q : Refusal) : raise s b k ≠ .refused q := by
  simp [raise]

/-- An error response has only its status, but for the unreachable ST = 6. -/
theorem errResponse_eq {k : ErrKind} (h : k ≠ .byteConversionFailure) (n : Nat) : errResponse k n = { st := k.code } := by
  cases k <;> simp_all [errResponse, errDetail]

@[simp] theorem errResponse_st (k : ErrKind) (n : Nat) : (errResponse k n).st = k.code := rfl

theorem code_ne_zero (k : ErrKind) : k.code ≠ 0 := by cases k <;> decide

/-! ### The guards -/

theorem inputFits_eq (cfg : Config) (inp : List Byte) : inputFits cfg inp = inputWithin cfg inp := rfl

theorem inputFits_iff (cfg : Config) (inp : List Byte) :
    inputFits cfg inp = true ↔ ∀ n, cfg.maxInBytes = some n → inp.length ≤ n := by
  unfold inputFits
  cases cfg.maxInBytes <;> simp

theorem withInput_fits {s : State} {inp : List Byte} (h : inputFits s.cfg inp = true) (cmd : Result) :
    withInput s inp cmd = cmd := by
  simp [withInput, h]

theorem withInput_overflow {s : State} {inp : List Byte} (h : inputFits s.cfg inp = false) (cmd : Result) :
    withInput s inp cmd = .fault .inputOverflow := by
  simp [withInput, h]

/-- A guarded command completes only where the input fits. -/
theorem withInput_eq_next {s t : State} {inp : List Byte} {cmd : Result} :
    withInput s inp cmd = .next t ↔ inputFits s.cfg inp = true ∧ cmd = .next t := by
  unfold withInput
  split <;> simp_all

theorem withContainer_none {s : State} (h : s.slot = none) (cmd : Container → Result) :
    withContainer s cmd = .fault .noContainer := by
  simp [withContainer, h]

theorem withContainer_some {s : State} {c : Container} (h : s.slot = some c) (cmd : Container → Result) :
    withContainer s cmd = cmd c := by
  simp [withContainer, h]

/-- A container command completes only on a container. -/
theorem withContainer_eq_next {s t : State} {cmd : Container → Result} :
    withContainer s cmd = .next t ↔ ∃ c, s.slot = some c ∧ cmd c = .next t := by
  unfold withContainer
  cases s.slot <;> simp

/-! ### The step -/

theorem step_idle {s : State} (h : s.host = []) : step s = .next s := by
  simp [step, take_nil h]

theorem step_reset {s : State} {rest : List HostAct} (h : s.host = .reset :: rest) :
    step s = .next (applyReset { s with host := rest }) := by
  simp [step, take_cons h]

theorem step_issue {s : State} {c : Command} {rest : List HostAct} (h : s.host = .issue c :: rest) :
    step s = match decode c with
      | .error _ => answerIllegal { s with host := rest }
      | .ok i => exec i { s with host := rest } := by
  cases hd : decode c <;> simp [step, take_cons h, hd]

/-- The input guard faults on an overlong IN, and otherwise only where the command does. -/
theorem withInput_fault {s : State} {inp : List Byte} {cmd : Result} {f : Fault} :
    withInput s inp cmd = .fault f ↔ (inputFits s.cfg inp = false ∧ f = .inputOverflow) ∨ (inputFits s.cfg inp = true ∧ cmd = .fault f) := by
  unfold withInput; split
  · rename_i h; simp [h]
  · rename_i h
    simp only [Bool.not_eq_true] at h
    simp [h]; exact eq_comm

/-- The slot guard faults on an empty slot, and otherwise only where the command does. -/
theorem withContainer_fault {s : State} {cmd : Container → Result} {f : Fault} :
    withContainer s cmd = .fault f ↔ (s.slot = none ∧ f = .noContainer) ∨ (∃ c, s.slot = some c ∧ cmd c = .fault f) := by
  unfold withContainer; cases s.slot
  · simp; exact eq_comm
  · simp

/-- One step of a run. -/
theorem run_succ {s u : State} {n : Nat} (h : step s = .next u) : Sys2Proof.core.run (n + 1) s = Sys2Proof.core.run n u := by
  have : Sys2Proof.core.step s = .next u := h
  simp only [Host.Core.run]
  rw [this]

end Sys2Proof.Machine
end

