-- ==== Sys2Proof/Laws/Exec.lean ====
section
/-! SUPPORT. What each command can do when it completes, said once: the inversion of its meaning. Later proofs cite these
and unfold no meaning. -/

namespace Sys2Proof.Machine

variable {s t : State}

theorem execChecksum_next {inp : List Byte} : exec (.checksum inp) s = .next t ↔
    inputFits s.cfg inp = true ∧ t = s.answer true { r0 := (ck inp).setWidth 64 } := by
  simp [exec, execChecksum, withInput_eq_next, memRead, slice]

theorem execPixelEncode_next {pix : Word24} : exec (.pixelEncode pix) s = .next t ↔
    t = s.answer false { out := [pixR pix, pixG pix, pixB pix] } := by
  simp [exec, execPixelEncode, memWrite, tripBytes]

theorem execChunkNew_next {pix : Word24} : exec (.chunkNew pix) s = .next t ↔
    t = s.answer true { r0 := (entryOfPix pix).word, r1 := (entryOfPix pix).ck.setWidth 64 } := by
  simp [exec, execChunkNew]

theorem execChunkEncode_next {pix : Word24} : exec (.chunkEncode pix) s = .next t ↔
    t = s.answer true { out := chunkRec (pixR pix) (pixG pix) (pixB pix) } := by
  simp [exec, execChunkEncode, memWrite]

theorem execChunkDecode_next {inp : List Byte} : exec (.chunkDecode inp) s = .next t ↔
    inputFits s.cfg inp = true ∧
      ((∃ k, chunkDec inp = .error k ∧ t = s.answer (ckRanBefore k) (errResponse k s.draws)) ∨
        ∃ e, chunkDec inp = .ok e ∧ t = s.answer true { r0 := e.word, r1 := e.ck.setWidth 64 }) := by
  simp only [exec, execChunkDecode, withInput_eq_next]
  cases chunkDec inp <;> simp [raise]

theorem execHeaderNew_next {w h : Word64} : exec (.headerNew w h) s = .next t ↔
    t = s.answer true { r0 := w, r1 := h, r2 := (hdrCk w h).setWidth 64 } := by
  simp [exec, execHeaderNew]

theorem execHeaderEncode_next {w h : Word64} : exec (.headerEncode w h) s = .next t ↔
    t = s.answer true { out := hdrRec w h } := by
  simp [exec, execHeaderEncode, memWrite]

theorem execHeaderDecode_next {inp : List Byte} : exec (.headerDecode inp) s = .next t ↔
    inputFits s.cfg inp = true ∧
      ((∃ k, hdrDec inp = .error k ∧ t = s.answer (ckRanBefore k) (errResponse k s.draws)) ∨
        ∃ d, hdrDec inp = .ok d ∧ t = s.answer true { r0 := d.w, r1 := d.h, r2 := d.ck.setWidth 64 }) := by
  simp only [exec, execHeaderDecode, withInput_eq_next]
  cases hdrDec inp <;> simp [raise]

theorem execContNewEmpty_next {w h : Word64} : exec (.contNewEmpty w h) s = .next t ↔
    t = (s.load { hdr := mkHeader w h, chunks := [], payload := [] }).answer true {} := by
  simp [exec, execContNewEmpty]

theorem execContFromChunks_next {w h : Word64} {trip : List Word24} : exec (.contFromChunks w h trip) s = .next t ↔
    trip.length ≤ s.cfg.maxChunks ∧
      ((trip.length ≠ area w h ∧ t = s.answer false (errResponse .dimensionMismatch s.draws)) ∨
        (trip.length = area w h ∧ 
          t = (s.load { hdr := mkHeader w h, chunks := trip.map entryOfPix, payload := reencode (trip.map entryOfPix) }).answer
            true {})) := by
  simp only [exec, execContFromChunks]
  split
  · simp; omega
  · split <;> simp_all [raise]

theorem execContDimensions_next : exec .contDimensions s = .next t ↔
    ∃ c, s.slot = some c ∧ t = s.answer false { r0 := c.hdr.w, r1 := c.hdr.h } := by
  simp [exec, execContDimensions, withContainer_eq_next]

theorem execContAppend_next {pix : Word24} : exec (.contAppend pix) s = .next t ↔
    ∃ c, s.slot = some c ∧ c.chunks.length ≠ s.cfg.maxChunks ∧
      t = (s.load { c with chunks := c.chunks ++ [entryOfPix pix],
                           payload := c.payload ++ (entryOfPix pix).record }).answer true {} := by
  simp only [exec, execContAppend, withContainer_eq_next]
  refine exists_congr fun c => and_congr_right fun _ => ?_
  split <;> simp_all

theorem execContGetAt_next {idx : Word64} : exec (.contGetAt idx) s = .next t ↔
    ∃ c, s.slot = some c ∧ t = s.answer false
      (match c.chunks[idx.toNat]? with
        | some e => { hit := true, r0 := e.word }
        | none => {}) := by
  simp only [exec, execContGetAt, withContainer_eq_next]
  refine exists_congr fun c => and_congr_right fun _ => ?_
  cases c.chunks[idx.toNat]? <;> simp

theorem execContRemoveAt_next {idx : Word64} : exec (.contRemoveAt idx) s = .next t ↔
    ∃ c, s.slot = some c ∧
      ((c.chunks.length ≤ idx.toNat ∧ t = s.answer false (errResponse .nonExistentChunk s.draws)) ∨
        (idx.toNat < c.chunks.length ∧
          t = (s.load { c with chunks := c.chunks.eraseIdx idx.toNat, payload := reencode (c.chunks.eraseIdx idx.toNat) }).answer
            false {})) := by
  simp only [exec, execContRemoveAt, withContainer_eq_next]
  refine exists_congr fun c => and_congr_right fun _ => ?_
  by_cases hi : idx.toNat < c.chunks.length
  · simp [hi, Nat.not_le.2 hi]
  · simp [hi, Nat.not_lt.1 hi, raise]

theorem execContReplaceAt_next {idx : Word64} {pix : Word24} : exec (.contReplaceAt idx pix) s = .next t ↔
    ∃ c, s.slot = some c ∧
      ((c.chunks.length ≤ idx.toNat ∧ t = s.answer false (errResponse .nonExistentChunk s.draws)) ∨
        (idx.toNat < c.chunks.length ∧
          t = (s.load { c with chunks := c.chunks.set idx.toNat (entryOfPix pix),
                               payload := reencode (c.chunks.set idx.toNat (entryOfPix pix)) }).answer true {})) := by
  simp only [exec, execContReplaceAt, withContainer_eq_next]
  refine exists_congr fun c => and_congr_right fun _ => ?_
  by_cases hi : idx.toNat < c.chunks.length
  · simp [hi, Nat.not_le.2 hi]
  · simp [hi, Nat.not_lt.1 hi, raise]

theorem execContEncode_next : exec .contEncode s = .next t ↔
    ∃ c, s.slot = some c ∧ t = s.answer true { out := hdrRec c.hdr.w c.hdr.h ++ c.payload } := by
  simp [exec, execContEncode, withContainer_eq_next, memWrite]

/-- CONT_DECODE: each way it completes, in the order of its checks (43_container.md R153). -/
theorem execContDecode_next {inp : List Byte} : exec (.contDecode inp) s = .next t ↔
    inputFits s.cfg inp = true ∧
      ((inp.length < 30 ∧ t = s.answer false (errResponse .invalidLength s.draws)) ∨
        (30 ≤ inp.length ∧
          ((∃ k, hdrDec (inp.take 30) = .error k ∧ t = s.answer (ckRanBefore k) (errResponse k s.draws)) ∨
            ∃ d, hdrDec (inp.take 30) = .ok d ∧ (inp.drop 30).length / 5 ≤ s.cfg.maxChunks ∧
              ((∃ k, decodeRecs (split5 (inp.drop 30)) = .error k ∧ t = s.answer true (errResponse k s.draws)) ∨
                ∃ es, decodeRecs (split5 (inp.drop 30)) = .ok es ∧
                  (((split5 (inp.drop 30)).length ≠ area d.w d.h ∧
                      t = s.answer true (errResponse .dimensionMismatch s.draws)) ∨
                    ((split5 (inp.drop 30)).length = area d.w d.h ∧
                      t = (s.load { hdr := d, chunks := es, payload := inp.drop 30 }).answer true
                        { r0 := d.w, r1 := d.h, r2 := BitVec.ofNat 64 (split5 (inp.drop 30)).length })))))) := by
  simp only [exec, execContDecode, withInput_eq_next, memRead, slice, List.drop_zero, Nat.zero_add, Nat.sub_zero]
  refine and_congr_right fun _ => ?_
  by_cases h30 : inp.length < 30
  · rw [if_pos h30]
    simp [raise, h30]
  · rw [if_neg h30]
    simp only [h30, false_and, false_or]
    rw [and_iff_right (by omega)]
    cases hdrDec (inp.take 30) with
    | error k => simp [raise]
    | ok d =>
      simp only [reduceCtorEq, false_and, exists_false, false_or, Except.ok.injEq, exists_eq_left']
      by_cases hc : (inp.drop 30).length / 5 > s.cfg.maxChunks
      · rw [if_pos hc]
        exact iff_of_false (by simp) fun hn => absurd hn.1 (by omega)
      · rw [if_neg hc, and_iff_right (by omega)]
        cases decodeRecs (split5 (inp.drop 30)) with
        | error k => simp [raise]
        | ok es =>
          simp only [reduceCtorEq, false_and, exists_false, false_or, Except.ok.injEq, exists_eq_left']
          split <;> simp_all [raise]

/-- Whatever a command does when it completes, it answers a response, moves the slot and nothing else that the spec
names: the build parameters and the host's pending actions stay. -/
theorem exec_next_shape {i : Instr} (h : exec i s = .next t) :
    ∃ b r c, t = { s with slot := c }.answer b r := by
  have same : ∀ b r, ∃ b' r' c, s.answer b r = { s with slot := c }.answer b' r' := fun b r => ⟨b, r, s.slot, rfl⟩
  have load : ∀ c b r, ∃ b' r' c', (s.load c).answer b r = { s with slot := c' }.answer b' r' :=
    fun c b r => ⟨b, r, some c, rfl⟩
  cases i with
  | checksum inp => obtain ⟨_, rfl⟩ := execChecksum_next.1 h; exact same _ _
  | pixelEncode pix => rw [execPixelEncode_next.1 h]; exact same _ _
  | chunkNew pix => rw [execChunkNew_next.1 h]; exact same _ _
  | chunkEncode pix => rw [execChunkEncode_next.1 h]; exact same _ _
  | chunkDecode inp => obtain ⟨_, ⟨_, _, rfl⟩ | ⟨_, _, rfl⟩⟩ := execChunkDecode_next.1 h <;> exact same _ _
  | headerNew w h' => rw [execHeaderNew_next.1 h]; exact same _ _
  | headerEncode w h' => rw [execHeaderEncode_next.1 h]; exact same _ _
  | headerDecode inp => obtain ⟨_, ⟨_, _, rfl⟩ | ⟨_, _, rfl⟩⟩ := execHeaderDecode_next.1 h <;> exact same _ _
  | contNewEmpty w h' => rw [execContNewEmpty_next.1 h]; exact load _ _ _
  | contFromChunks w h' trip =>
    obtain ⟨_, ⟨_, rfl⟩ | ⟨_, rfl⟩⟩ := execContFromChunks_next.1 h
    · exact same _ _
    · exact load _ _ _
  | contDimensions => obtain ⟨_, _, rfl⟩ := execContDimensions_next.1 h; exact same _ _
  | contAppend pix => obtain ⟨_, _, _, rfl⟩ := execContAppend_next.1 h; exact load _ _ _
  | contGetAt idx => obtain ⟨_, _, rfl⟩ := execContGetAt_next.1 h; exact same _ _
  | contRemoveAt idx =>
    obtain ⟨_, _, ⟨_, rfl⟩ | ⟨_, rfl⟩⟩ := execContRemoveAt_next.1 h
    · exact same _ _
    · exact load _ _ _
  | contReplaceAt idx pix =>
    obtain ⟨_, _, ⟨_, rfl⟩ | ⟨_, rfl⟩⟩ := execContReplaceAt_next.1 h
    · exact same _ _
    · exact load _ _ _
  | contEncode => obtain ⟨_, _, rfl⟩ := execContEncode_next.1 h; exact same _ _
  | contDecode inp =>
    obtain ⟨_, ⟨_, rfl⟩ | ⟨_, ⟨_, _, rfl⟩ | ⟨_, _, _, ⟨_, _, rfl⟩ | ⟨_, _, ⟨_, rfl⟩ | ⟨_, rfl⟩⟩⟩⟩⟩ := execContDecode_next.1 h
    · exact same _ _
    · exact same _ _
    · exact same _ _
    · exact same _ _
    · exact load _ _ _

end Sys2Proof.Machine
end

