-- ==== Sys2Proof/Laws/Completion.lean ====
section
/-! SUPPORT. From a known next state to `Completes`, and what no command touches. -/

namespace Sys2Proof.Machine

/-- A command that only answers completes with the slot as it was. -/
theorem completes_same {i : Instr} {s : State} {b : Bool} {r : Response} (h : exec i s = .next (s.answer b r)) : Completes i s s.slot r :=
  ⟨_, h, rfl, rfl, rfl, rfl⟩

/-- A command that loads the slot completes with the container loaded. -/
theorem completes_load {i : Instr} {s : State} {c : Container} {b : Bool} {r : Response} (h : exec i s = .next ((s.load c).answer b r)) : Completes i s (some c) r :=
  ⟨_, h, rfl, rfl, rfl, rfl⟩

/-- The conditions of a fault look at the slot and the build alone. -/
theorem faults_congr {i s s' f} (h1 : s.slot = s'.slot) (h2 : s.cfg = s'.cfg) : Faults i s f ↔ Faults i s' f := by
  cases i <;> simp [Faults, h1, h2]

end Sys2Proof.Machine
end

