-- ==== Sys2Proof/Laws/PerInstr.lean ====
section
/-! SUPPORT. The family EncodeLegal: the command word of each instruction has its reserved bits zero and an assigned
opcode (spec 30_encoding.md R61, R69). -/

namespace Sys2Proof.Laws.EncodeLegal

/-- What every instruction's encoding satisfies. -/
def Statement (i : Instr) : Prop :=
  rsvOf (encode i).cw = 0 ∧ (decodeOpc (opcOf (encode i).cw) (encode i)).isSome = true

theorem checksum (inp : List Byte) : Statement (.checksum inp) := ⟨rsvOf_encode _, Option.isSome_of_eq_some (decodeOpc_encode _)⟩
theorem pixelEncode (pix : Word24) : Statement (.pixelEncode pix) := ⟨rsvOf_encode _, Option.isSome_of_eq_some (decodeOpc_encode _)⟩
theorem chunkNew (pix : Word24) : Statement (.chunkNew pix) := ⟨rsvOf_encode _, Option.isSome_of_eq_some (decodeOpc_encode _)⟩
theorem chunkEncode (pix : Word24) : Statement (.chunkEncode pix) := ⟨rsvOf_encode _, Option.isSome_of_eq_some (decodeOpc_encode _)⟩
theorem chunkDecode (inp : List Byte) : Statement (.chunkDecode inp) := ⟨rsvOf_encode _, Option.isSome_of_eq_some (decodeOpc_encode _)⟩
theorem headerNew (w h : Word64) : Statement (.headerNew w h) := ⟨rsvOf_encode _, Option.isSome_of_eq_some (decodeOpc_encode _)⟩
theorem headerEncode (w h : Word64) : Statement (.headerEncode w h) := ⟨rsvOf_encode _, Option.isSome_of_eq_some (decodeOpc_encode _)⟩
theorem headerDecode (inp : List Byte) : Statement (.headerDecode inp) := ⟨rsvOf_encode _, Option.isSome_of_eq_some (decodeOpc_encode _)⟩
theorem contNewEmpty (w h : Word64) : Statement (.contNewEmpty w h) := ⟨rsvOf_encode _, Option.isSome_of_eq_some (decodeOpc_encode _)⟩
theorem contFromChunks (w h : Word64) (trip : List Word24) : Statement (.contFromChunks w h trip) := ⟨rsvOf_encode _, Option.isSome_of_eq_some (decodeOpc_encode _)⟩
theorem contDimensions : Statement .contDimensions := ⟨rsvOf_encode _, Option.isSome_of_eq_some (decodeOpc_encode _)⟩
theorem contAppend (pix : Word24) : Statement (.contAppend pix) := ⟨rsvOf_encode _, Option.isSome_of_eq_some (decodeOpc_encode _)⟩
theorem contGetAt (idx : Word64) : Statement (.contGetAt idx) := ⟨rsvOf_encode _, Option.isSome_of_eq_some (decodeOpc_encode _)⟩
theorem contRemoveAt (idx : Word64) : Statement (.contRemoveAt idx) := ⟨rsvOf_encode _, Option.isSome_of_eq_some (decodeOpc_encode _)⟩
theorem contReplaceAt (idx : Word64) (pix : Word24) : Statement (.contReplaceAt idx pix) := ⟨rsvOf_encode _, Option.isSome_of_eq_some (decodeOpc_encode _)⟩
theorem contEncode : Statement .contEncode := ⟨rsvOf_encode _, Option.isSome_of_eq_some (decodeOpc_encode _)⟩
theorem contDecode (inp : List Byte) : Statement (.contDecode inp) := ⟨rsvOf_encode _, Option.isSome_of_eq_some (decodeOpc_encode _)⟩

end Sys2Proof.Laws.EncodeLegal
end

