-- ==== Sys2Proof/Tests/Slice0.lean ====
section
/-! SUPPORT. The model's own tests, one step each on small states, and for every statement with hypotheses a concrete state
and operands that meet them. Every expected value is taken from spec/95_test_vectors.md (V2 to V32) or from the examples of
the rule named. -/

namespace Sys2Proof.Tests

open Sys2Proof Sys2Proof.Machine

/-! ### Helpers -/

/-- The reset state with the given slot and build. -/
def st (c : Option Container) (maxChunks : Nat := 2 ^ 64 - 1) (maxIn : Option Nat := none) : State :=
  { State.reset with slot := c, cfg := { maxChunks := maxChunks, maxInBytes := maxIn } }

/-- The response of a completed command. -/
def respOf : Result → Option Response
  | .next t => t.resp
  | _ => none

/-- The slot after a completed command. -/
def slotOf : Result → Option Container
  | .next t => t.slot
  | _ => none

/-- The fault of a command that took one. -/
def faultOf : Result → Option Fault
  | .fault f => some f
  | _ => none

/-- V5: the triplets. -/
def pixels : List Word24 := [0xABCDEF, 0x123456, 0x694200, 0xDEADA5]

/-- V5: bytes 0 to 29. -/
def head22 : List Byte :=
  [0x43, 0x49, 0x45, 0x42, 0x49, 0x49, 0x46, 0x49, 0x4C, 0x45] ++ [0x00, 0x00, 0x00, 0x00, 0x00, 0x00, 0x00, 0x02] ++
  [0x00, 0x00, 0x00, 0x00, 0x00, 0x00, 0x00, 0x02] ++ [0x00, 0x00, 0x09, 0x47]

/-- V5: bytes 30 to 49. -/
def recs22 : List Byte :=
  [0xAB, 0xCD, 0xEF, 0x00, 0xEF] ++ [0x12, 0x34, 0x56, 0x02, 0x20] ++ [0x69, 0x42, 0x00, 0x01, 0xC1] ++
  [0xDE, 0xAD, 0xA5, 0x01, 0xBF]

/-- V5: the chunks of the 2 × 2 container. -/
def chunks22 : List Chunk :=
  [{ r := 0xAB, g := 0xCD, b := 0xEF, ck := 239 }, { r := 0x12, g := 0x34, b := 0x56, ck := 544 },
   { r := 0x69, g := 0x42, b := 0x00, ck := 449 }, { r := 0xDE, g := 0xAD, b := 0xA5, ck := 447 }]

/-- V5: the 2 × 2 container. -/
def box22 : Container := { hdr := { w := 2, h := 2, ck := 2375 }, chunks := chunks22, payload := recs22 }

/-- V25: the staging container of CONT_NEW_EMPTY W=2, H=1; HDR_CK is written as the rule's function. -/
def box21 : Container := { hdr := { w := 2, h := 1, ck := hdrCk 2 1 }, chunks := [], payload := [] }

/-- V27: the 1 × 1 container of the red pixel; V20: the checksum of (1,1). -/
def box11 : Container :=
  { hdr := { w := 1, h := 1, ck := 2367 }, chunks := [{ r := 0xFF, g := 0x00, b := 0x00, ck := 252 }],
    payload := [0xFF, 0x00, 0x00, 0x00, 0xFC] }

/-! ### Decoding (30_encoding.md R69; V31) -/

theorem test_word_checksum : decodeTableWord 32 0x00000001 = some (.checksum []) := by decide
theorem test_word_pixelEncode : decodeTableWord 32 0x00000010 = some (.pixelEncode 0) := by decide
theorem test_word_chunkNew : decodeTableWord 32 0x00000020 = some (.chunkNew 0) := by decide
theorem test_word_chunkEncode : decodeTableWord 32 0x00000021 = some (.chunkEncode 0) := by decide
theorem test_word_chunkDecode : decodeTableWord 32 0x00000022 = some (.chunkDecode []) := by decide
theorem test_word_headerNew : decodeTableWord 32 0x00000030 = some (.headerNew 0 0) := by decide
theorem test_word_headerEncode : decodeTableWord 32 0x00000031 = some (.headerEncode 0 0) := by decide
theorem test_word_headerDecode : decodeTableWord 32 0x00000032 = some (.headerDecode []) := by decide
theorem test_word_contNewEmpty : decodeTableWord 32 0x00000040 = some (.contNewEmpty 0 0) := by decide
theorem test_word_contFromChunks : decodeTableWord 32 0x00000041 = some (.contFromChunks 0 0 []) := by decide
theorem test_word_contDimensions : decodeTableWord 32 0x00000042 = some .contDimensions := by decide
theorem test_word_contAppend : decodeTableWord 32 0x00000043 = some (.contAppend 0) := by decide
theorem test_word_contGetAt : decodeTableWord 32 0x00000044 = some (.contGetAt 0) := by decide
theorem test_word_contRemoveAt : decodeTableWord 32 0x00000045 = some (.contRemoveAt 0) := by decide
theorem test_word_contReplaceAt : decodeTableWord 32 0x00000046 = some (.contReplaceAt 0 0) := by decide
theorem test_word_contEncode : decodeTableWord 32 0x00000047 = some .contEncode := by decide
theorem test_word_contDecode : decodeTableWord 32 0x00000048 = some (.contDecode []) := by decide

/-- V31: the illegal command words. -/
theorem test_illegal_words :
    [0x00000000, 0x00000002, 0x00000023, 0x00000049, 0x000000FF, 0x00000120, 0x80000001].map (decodeTableWord 32) =
      [none, none, none, none, none, none, none] := by decide

/-- R63: a slot the opcode reads is taken, a slot it does not read is ignored. -/
theorem test_slots_read :
    decode { cw := 0x00000046, idx := 7, pix := 0x123456, w := 9, inp := [0xFF] } = .ok (.contReplaceAt 7 0x123456) := by
  decide

/-! ### Well-formedness: each check refuses an ill-formed term (R62) -/

theorem test_wf_checksum : (Instr.checksum (List.replicate 41 0)).wellFormed { maxChunks := 0, maxInBytes := some 40 } = false := by
  decide
theorem test_wf_chunkDecode :
    (Instr.chunkDecode (List.replicate 41 0)).wellFormed { maxChunks := 0, maxInBytes := some 40 } = false := by decide
theorem test_wf_headerDecode :
    (Instr.headerDecode (List.replicate 41 0)).wellFormed { maxChunks := 0, maxInBytes := some 40 } = false := by decide
theorem test_wf_contDecode :
    (Instr.contDecode (List.replicate 41 0)).wellFormed { maxChunks := 0, maxInBytes := some 40 } = false := by decide
/-- The bound itself is well formed. -/
theorem test_wf_bound : (Instr.checksum (List.replicate 40 0)).wellFormed { maxChunks := 0, maxInBytes := some 40 } = true := by
  decide

/-! ### The step and the fetch -/

/-- V10: CHECKSUM IN=[] as the first command after reset. -/
theorem test_first_checksum : respOf (step (State.reset.withFetchWord 32 0x00000001)) = some {} := by decide
/-- V12: CHUNK_NEW of the black pixel as the first command after reset. -/
theorem test_first_chunkNew :
    respOf (step (State.reset.withFetchWord 32 0x00000020)) = some { r0 := 0x0000000200, r1 := 512 } := by decide
/-- V32: CONT_DIMENSIONS as the first command after reset. -/
theorem test_first_contDimensions : faultOf (step (State.reset.withFetchWord 32 0x00000042)) = some .noContainer := by decide
/-- V31, 60_exceptions.md R189: an illegal word with a container OPC comes before NoContainer. -/
theorem test_first_illegal : respOf (step (State.reset.withFetchWord 32 0x00000142)) = some { st := 7 } := by decide

/-! ### Checksum (V2, V10) -/

theorem test_checksum_V2 : respOf (exec (.checksum [0xAB, 0xCD, 0xEF]) (st none)) = some { r0 := 239 } := by decide
theorem test_checksum_V4 :
    respOf (exec (.checksum (List.replicate 7 0x00 ++ [0x14] ++ List.replicate 7 0x00 ++ [0x14])) (st none)) =
      some { r0 := 2161 } := by decide

/-! ### Pixels and chunks (V11 to V14) -/

theorem test_pixelEncode : respOf (exec (.pixelEncode 0x0000FF) (st none)) = some { out := [0x00, 0x00, 0xFF] } := by decide
theorem test_chunkNew : respOf (exec (.chunkNew 0x123456) (st none)) = some { r0 := 0x1234560220, r1 := 544 } := by decide
theorem test_chunkEncode :
    respOf (exec (.chunkEncode 0xFF0000) (st none)) = some { out := [0xFF, 0x00, 0x00, 0x00, 0xFC] } := by decide
theorem test_chunkDecode_ok :
    respOf (exec (.chunkDecode [0x00, 0x02, 0x02, 0x01, 0xFE]) (st none)) = some { r0 := 0x00020201FE, r1 := 0x1FE } := by decide
theorem test_chunkDecode_high_byte : respOf (exec (.chunkDecode [0xFF, 0x00, 0x00, 0x01, 0xFC]) (st none)) = some { st := 2 } := by
  decide

/-! ### Headers (V4, V20 to V23) -/

theorem test_headerNew : respOf (exec (.headerNew 1920 1080) (st none)) = some { r0 := 1920, r1 := 1080, r2 := 1396 } := by
  decide
theorem test_headerEncode : respOf (exec (.headerEncode 2 2) (st none)) = some { out := head22 } := by decide +kernel
theorem test_headerDecode_V23 :
    respOf (exec (.headerDecode ((hdrRec 20 20).set 24 0x04)) (st none)) = some { r0 := 20, r1 := 1044, r2 := 2161 } := by
  decide +kernel
/-- V22: a wrong magic with a wrong checksum reports IllegalHeader. -/
theorem test_headerDecode_V22 :
    respOf (exec (.headerDecode ((head22.set 0 0x44).set 29 0x46)) (st none)) = some { st := 3 } := by decide +kernel

/-! ### Containers (V5, V25 to V30) -/

theorem test_contNewEmpty :
    slotOf (exec (.contNewEmpty 0 0) (st (some box22))) =
      some { hdr := { w := 0, h := 0, ck := 2359 }, chunks := [], payload := [] } := by decide +kernel
theorem test_contFromChunks : slotOf (exec (.contFromChunks 2 2 pixels) (st none)) = some box22 := by decide +kernel
/-- V26: the product 2^64 is not reduced. -/
theorem test_contFromChunks_product :
    respOf (exec (.contFromChunks (2 ^ 32) (2 ^ 32) []) (st none)) = some { st := 5 } := by decide +kernel
theorem test_contDimensions : respOf (exec .contDimensions (st (some box21))) = some { r0 := 2, r1 := 1 } := by decide +kernel
theorem test_contAppend :
    slotOf (exec (.contAppend 0x000000) (st (some box11))) =
      some { hdr := { w := 1, h := 1, ck := 2367 },
             chunks := [{ r := 0xFF, g := 0x00, b := 0x00, ck := 252 }, { r := 0x00, g := 0x00, b := 0x00, ck := 512 }],
             payload := [0xFF, 0x00, 0x00, 0x00, 0xFC, 0x00, 0x00, 0x00, 0x02, 0x00] } := by decide +kernel
theorem test_contGetAt_hit :
    respOf (exec (.contGetAt 0) (st (some box11))) = some { hit := true, r0 := 0xFF000000FC } := by decide +kernel
theorem test_contGetAt_miss : respOf (exec (.contGetAt 1) (st (some box11))) = some {} := by decide +kernel
/-- V28, third row's effect on V5: the later chunks move down. -/
theorem test_contRemoveAt :
    (slotOf (exec (.contRemoveAt 0) (st (some box22)))).map (·.payload) =
      some [0x12, 0x34, 0x56, 0x02, 0x20, 0x69, 0x42, 0x00, 0x01, 0xC1, 0xDE, 0xAD, 0xA5, 0x01, 0xBF] := by decide +kernel
theorem test_contRemoveAt_past_end : respOf (exec (.contRemoveAt 4) (st (some box22))) = some { st := 4 } := by decide +kernel
theorem test_contReplaceAt :
    (slotOf (exec (.contReplaceAt 1 0x000000) (st (some box22)))).map (·.payload) =
      some ([0xAB, 0xCD, 0xEF, 0x00, 0xEF] ++ [0x00, 0x00, 0x00, 0x02, 0x00] ++ [0x69, 0x42, 0x00, 0x01, 0xC1] ++
        [0xDE, 0xAD, 0xA5, 0x01, 0xBF]) := by decide +kernel
theorem test_contReplaceAt_past_end : respOf (exec (.contReplaceAt 4 0) (st (some box22))) = some { st := 4 } := by
  decide +kernel
theorem test_contEncode : respOf (exec .contEncode (st (some box22))) = some { out := head22 ++ recs22 } := by decide +kernel
theorem test_contDecode : slotOf (exec (.contDecode (head22 ++ recs22)) (st none)) = some box22 := by decide +kernel
/-- V30: a corrupt record 1 in a stream with too few chunks is found before the count check. -/
theorem test_contDecode_first_failure :
    respOf (exec (.contDecode (head22 ++ (recs22.set 7 0x57).take 15)) (st none)) = some { st := 2 } := by decide +kernel

/-! ### Model faults (V32) -/

theorem test_input_overflow :
    faultOf (exec (.contDecode (head22 ++ recs22)) (st none (maxIn := some 40))) = some .inputOverflow := by decide +kernel
theorem test_capacity_append :
    faultOf (exec (.contAppend 0) (st (some { box22 with chunks := chunks22.take 2, payload := recs22.take 10 }) 2)) =
      some .capacityExceeded := by decide +kernel
theorem test_capacity_decode : faultOf (exec (.contDecode (head22 ++ recs22)) (st none 3)) = some .capacityExceeded := by
  decide +kernel
theorem test_capacity_after_length : respOf (exec (.contDecode (head22.take 29)) (st none 3)) = some { st := 1 } := by
  decide +kernel

/-! ### Assembler lines (the examples of 30_encoding.md R76) -/

theorem test_asm_chunkEncode :
    assemble "CHUNK_ENCODE PIX=0xFF0000".toList = some { cw := 0x00000021, pix := 0xFF0000 } := by decide +kernel
theorem test_asm_contFromChunks :
    assemble "CONT_FROM_CHUNKS W=2, H=2, TRIP=[0xABCDEF,0x123456,0x694200,0xDEADA5]".toList =
      some { cw := 0x00000041, w := 2, h := 2, trip := pixels } := by decide +kernel
theorem test_asm_contGetAt : assemble "CONT_GET_AT IDX=3 ; a comment".toList = some { cw := 0x00000044, idx := 3 } := by
  decide +kernel
theorem test_asm_in_list :
    assemble "CHUNK_DECODE IN=[0xFF,0x00,0x00,0x00,0xFC]".toList =
      some { cw := 0x00000022, inp := [0xFF, 0x00, 0x00, 0x00, 0xFC] } := by decide +kernel
/-- R77: no pseudo-commands; R76: exactly the slots the opcode reads. -/
theorem test_asm_refused :
    ["ROUND_TRIP".toList, "CONT_GET_AT".toList, "CONT_ENCODE W=1".toList].map assemble = [none, none, none] := by decide +kernel

/-! ### Witnesses: for each statement with hypotheses, a state and operands that meet them all -/

theorem box22_valid (m : Nat) (h : 4 ≤ m) (n : Option Nat) : box22.Valid { maxChunks := m, maxInBytes := n } :=
  ⟨by unfold Header.valid; decide, by unfold Chunk.valid; decide, by decide, h⟩

theorem box21_valid : box21.Valid Config.unlimited := ⟨rfl, by simp [box21], rfl, by simp [box21]⟩

/-- A state in which the host issues c next. -/
def issuing (s : State) (c : Command) : State := { s with host := [.issue c] }

theorem witness_IllegalWordsAreAllTheOthers :
    256 ≤ (Command.mk 0x100 0 0 0 0 [] []).cw.toNat ∧
    (Command.mk 0xFF 0 0 0 0 [] []).cw.toNat < 256 ∧ (∀ i, decode (Command.mk 0xFF 0 0 0 0 [] []) ≠ .ok i) :=
  ⟨by decide, by decide, by intro i h; simp [decode, decodeOpc, rsvOf, opcOf] at h⟩

theorem witness_IllegalWordAnswersSeven :
    (issuing State.reset { cw := 0x00000120 }).host = .issue { cw := 0x00000120 } :: [] ∧
    ({ cw := 0x00000120 } : Command).cw ∉
      [0x01, 0x10, 0x20, 0x21, 0x22, 0x30, 0x31, 0x32, 0x40, 0x41, 0x42, 0x43, 0x44, 0x45, 0x46, 0x47, 0x48] := by decide

theorem witness_StepRunsTheDecodedCommand :
    (issuing (st (some box22)) { cw := 0x00000043, pix := 0x123456 }).host = .issue { cw := 0x00000043, pix := 0x123456 } :: [] ∧
    decode { cw := 0x00000043, pix := 0x123456 } = .ok (.contAppend 0x123456) := by decide

theorem witness_IdleAndResetSteps : State.reset.host = [] ∧ ({ st (some box22) with host := [.reset] } : State).host = .reset :: [] := by
  decide

theorem witness_OnlyConstructorsAndResetMoveCvalid :
    (∃ t r, exec (.contNewEmpty 2 1) State.reset = .next t ∧ t.resp = some r ∧ isConstructor (.contNewEmpty 2 1) ∧ r.st = 0) ∧
    (∃ t, step (issuing State.reset { cw := 0x00000040 }) = .next t ∧ t.slot ≠ none) ∧
    (∃ t, step { st (some box22) with host := [.reset] } = .next t ∧ t.slot = none ∧ (st (some box22)).slot ≠ none) ∧
    State.reset.slot = none :=
  ⟨⟨_, _, rfl, rfl, trivial, rfl⟩, ⟨_, rfl, by simp [State.load, State.answer]⟩, ⟨_, rfl, rfl, by decide⟩, rfl⟩

theorem witness_OnlyConstructorsWriteTheHeader :
    (∃ t, exec (.contAppend 0) (st (some box11)) = .next t ∧ ¬ isConstructor (.contAppend 0) ∧ (st (some box11)).slot = some box11) ∧
    (∃ t, exec (.pixelEncode 0) State.reset = .next t ∧ ¬ isConstructor (.pixelEncode 0) ∧ State.reset.slot = none) :=
  ⟨⟨_, rfl, not_false, rfl⟩, ⟨_, rfl, not_false, rfl⟩⟩

theorem witness_ChecksumRegistersKeptWithoutEvaluation :
    (∃ t, exec (.pixelEncode 0) State.reset = .next t) ∧ (∃ t, exec .contDimensions (st (some box22)) = .next t) ∧
    (∃ t, exec (.contGetAt 4) (st (some box22)) = .next t) ∧ (∃ t, exec (.contRemoveAt 3) (st (some box22)) = .next t) ∧
    (∃ t r, exec (.headerDecode (head22.set 0 0x44)) State.reset = .next t ∧ t.resp = some r ∧ (r.st = 3 ∨ r.st = 4)) ∧
    (∃ t r, exec (.contReplaceAt 4 0) (st (some box22)) = .next t ∧ t.resp = some r ∧ (r.st = 3 ∨ r.st = 4)) ∧
    (∃ t r, exec (.contFromChunks 2 2 []) State.reset = .next t ∧ t.resp = some r ∧ r.st = 5) ∧
    (∃ t, ([0, 0, 0, 0, 0, 0] : List Byte).length ≠ 5 ∧ exec (.chunkDecode [0, 0, 0, 0, 0, 0]) State.reset = .next t) ∧
    (∃ t, (head22 ++ [0]).length ≠ 30 ∧ exec (.headerDecode (head22 ++ [0])) State.reset = .next t) ∧
    (∃ t, (head22.take 29).length < 30 ∧ exec (.contDecode (head22.take 29)) State.reset = .next t) ∧
    (∃ t, (issuing State.reset { cw := 0x00000002 }).host = .issue { cw := 0x00000002 } :: [] ∧
      (∀ i, decode { cw := 0x00000002 } ≠ .ok i) ∧ step (issuing State.reset { cw := 0x00000002 }) = .next t) :=
  ⟨⟨_, rfl⟩, ⟨_, rfl⟩, ⟨_, rfl⟩, ⟨_, rfl⟩, ⟨_, _, rfl, rfl, .inl rfl⟩, ⟨_, _, rfl, rfl, .inr rfl⟩, ⟨_, _, rfl, rfl, rfl⟩,
    ⟨_, by decide, rfl⟩, ⟨_, by decide, rfl⟩, ⟨_, by decide, rfl⟩,
    ⟨_, rfl, by intro i h; simp [decode, decodeOpc, rsvOf, opcOf] at h, rfl⟩⟩

theorem witness_EveryStepKeepsTheInvariant :
    ∃ t, (issuing (st (some box22)) { cw := 0x00000043, pix := 0x123456 }).Inv ∧
      step (issuing (st (some box22)) { cw := 0x00000043, pix := 0x123456 }) = .next t ∧ t.slot ≠ some box22 :=
  ⟨_, ⟨by decide, fun c h => by cases h; exact box22_valid _ (by decide) _, fun r h => by cases h⟩, rfl, by
    simp only [load_slot, answer_slot]; decide⟩

theorem witness_StepTakesOneActionAndKeepsTheBuild : ∃ t, step (issuing State.reset { cw := 0x00000010 }) = .next t := ⟨_, rfl⟩

theorem witness_CommandsReadOnlySlotAndBuild :
    (st (some box22)).slot = ({ st (some box22) with engine := { acc := 1, prev := 2 }, draws := 3 } : State).slot ∧
    (st (some box22)).cfg = ({ st (some box22) with engine := { acc := 1, prev := 2 }, draws := 3 } : State).cfg ∧
    (∃ t, exec (.chunkNew 5) (st (some box22)) = .next t) ∧ exec .contEncode (st none) = .fault .noContainer :=
  ⟨rfl, rfl, ⟨_, rfl⟩, rfl⟩

theorem witness_RepeatingACommand :
    (∃ t, ¬ writesSlot .contEncode ∧ exec .contEncode (st (some box22)) = .next t) ∧
    (∃ t, isIdempotent (.contReplaceAt 1 0) ∧ exec (.contReplaceAt 1 0) (st (some box22)) = .next t) ∧
    (∃ t r, ¬ isIdempotent (.contRemoveAt 3) ∧ exec (.contRemoveAt 3) (st (some box22)) = .next t ∧ t.resp = some r ∧ r.st = 0 ∧
      (st (some box22)).slot = some box22) :=
  ⟨⟨_, not_false, rfl⟩, ⟨_, trivial, rfl⟩, ⟨_, _, not_false, rfl, rfl, rfl, rfl⟩⟩

theorem witness_BigEndianEncoding : 65535 < 2 ^ (8 * 2) ∧ 1 < 2 := by decide

theorem witness_ChecksumByExactModularArithmetic : ([0xFF, 0xFF, 0xFF] : List Byte)[2]? = some 0xFF := by decide

theorem witness_LastByteChangeIsDetected : (0xEF : Byte) ≠ 0xEE := by decide

theorem witness_ChecksumCommand :
    inputFits (st none (maxIn := some 40)).cfg (List.replicate 40 0) = true ∧
    inputFits (st none (maxIn := some 40)).cfg (List.replicate 41 0) = false := by decide

/-- For the four statements that name the parts of PIX. -/
theorem witness_pix_parts :
    (0xAB : Byte) = (0xABCDEF : Word24).extractLsb' 16 8 ∧ (0xCD : Byte) = (0xABCDEF : Word24).extractLsb' 8 8 ∧
    (0xEF : Byte) = (0xABCDEF : Word24).extractLsb' 0 8 := by decide

theorem witness_ChunkEncodeCommand : (entry 0xAB 0xCD 0xEF).ck = ck [0xAB, 0xCD, 0xEF] := by decide

theorem witness_ChunkDecodeCommand :
    inputFits (st none (maxIn := some 30)).cfg (List.replicate 31 0) = false ∧
    inputFits (st none (maxIn := some 30)).cfg [0, 0, 0, 0] = true ∧ ([0, 0, 0, 0] : List Byte).length ≠ 5 ∧
    inputFits (st none (maxIn := some 30)).cfg [0xFF, 0x00, 0x00, 0x01, 0xFC] = true ∧
    ck [0xFF, 0x00, 0x00] ≠ (0x01 : Byte) ++ (0xFC : Byte) ∧ ck [0xFF, 0x00, 0x00] = (0x00 : Byte) ++ (0xFC : Byte) := by decide

theorem witness_ChunkRecordRoundTrip :
    chunkDec [0xFF, 0x00, 0x00, 0x00, 0xFC] = .ok { r := 0xFF, g := 0x00, b := 0x00, ck := 252 } ∧
    chunkRec 1 2 3 = chunkRec 1 2 3 ∧ ([0xFF, 0x00, 0x00, 0x01, 0xFC] : List Byte).length = 5 ∧
    (∀ r g b, [0xFF, 0x00, 0x00, 0x01, 0xFC] ≠ chunkRec r g b) := by
  refine ⟨by rfl, rfl, rfl, fun r g b h => ?_⟩
  simp only [chunkRec, be_two, tripBytes, List.cons_append, List.nil_append, List.cons.injEq] at h
  obtain ⟨rfl, rfl, rfl, h, _⟩ := h
  exact absurd h (by decide)

theorem witness_HeaderDecodeCommand :
    inputFits (st none (maxIn := some 30)).cfg (List.replicate 31 0) = false ∧
    inputFits (st none (maxIn := some 30)).cfg (List.replicate 29 0) = true ∧ (List.replicate 29 (0 : Byte)).length ≠ 30 ∧
    inputFits (st none (maxIn := some 30)).cfg (magic ++ be 8 20 ++ be 8 20 ++ [0x00, 0x00, 0x08, 0x71]) = true ∧
    magic.length = 10 ∧ (be 8 20).length = 8 ∧ ([0x00, 0x00, 0x08, 0x71] : List Byte).length = 4 ∧
    magic = [0x43, 0x49, 0x45, 0x42, 0x49, 0x49, 0x46, 0x49, 0x4C, 0x45] ∧
    (magic.set 0 0x44).length = 10 ∧ magic.set 0 0x44 ≠ [0x43, 0x49, 0x45, 0x42, 0x49, 0x49, 0x46, 0x49, 0x4C, 0x45] ∧
    (ck (be 8 20 ++ be 8 20)).toNat ≠ fromBE [0x00, 0x01, 0x08, 0x71] ∧
    (ck (be 8 20 ++ be 8 20)).toNat = fromBE [0x00, 0x00, 0x08, 0x71] := by decide

theorem witness_HeaderRecordRoundTrip :
    hdrDec head22 = .ok { w := 2, h := 2, ck := 2375 } ∧ (hdrRec 20 20)[25]? ≠ some 0x15 := by
  exact ⟨by rfl, by decide⟩

theorem witness_HeaderChecksumMixedWidth :
    hdrDec head22 = .ok { w := 2, h := 2, ck := 2375 } ∧ (head22.set 27 0x01).length = 30 ∧
    (head22.set 27 0x01).take 10 = [0x43, 0x49, 0x45, 0x42, 0x49, 0x49, 0x46, 0x49, 0x4C, 0x45] ∧
    (head22.set 27 0x01)[26]? = some 0x00 ∧ (head22.set 27 0x01)[27]? = some 0x01 ∧ ((0x00 : Byte) ≠ 0x00 ∨ (0x01 : Byte) ≠ 0x00) := by
  exact ⟨by rfl, by decide, by decide, by decide, by decide, by decide⟩

theorem witness_ContFromChunksCommand :
    (st none 3).cfg.maxChunks < pixels.length ∧ pixels.length ≤ (st none 4).cfg.maxChunks ∧
    pixels.length ≠ (1 : Word64).toNat * (3 : Word64).toNat ∧ pixels.length = (2 : Word64).toNat * (2 : Word64).toNat ∧
    pixels[3]? = some 0xDEADA5 := by decide

theorem witness_DimensionCheckIsExact :
    (st none).cfg.legal = true ∧ 2 ^ 64 ≤ (0x100000000 : Word64).toNat * (0x100000000 : Word64).toNat ∧
    ([] : List Word24).length ≤ (st none).cfg.maxChunks ∧
    (∃ t r, isConstructor (.contFromChunks 2 2 pixels) ∧ (∀ w h, Instr.contFromChunks 2 2 pixels ≠ .contNewEmpty w h) ∧
      exec (.contFromChunks 2 2 pixels) (st none) = .next t ∧ t.resp = some r ∧ r.st = 0) :=
  ⟨by decide, by decide, by decide, ⟨_, _, trivial, nofun, rfl, rfl, rfl⟩⟩

/-- For the container statements: an empty slot; a loaded one; the last index in range and the first out of range; the
capacity reached and not reached; a consistent payload. -/
theorem witness_container_commands :
    (st none).slot = none ∧ (st (some box22) 4).slot = some box22 ∧ (3 : Word64).toNat < box22.chunks.length ∧
    box22.chunks.length ≤ (4 : Word64).toNat ∧ box22.chunks.length = (st (some box22) 4).cfg.maxChunks ∧
    box22.chunks.length ≠ (st (some box22) 5).cfg.maxChunks ∧ box22.payload = box22.chunks.flatMap Chunk.record := by decide

theorem witness_ContainerFrameMap :
    (st (some box22)).slot = some box22 ∧ box22.Valid (st (some box22)).cfg ∧ 3 < box22.chunks.length :=
  ⟨rfl, box22_valid _ (by decide) _, by decide⟩

theorem witness_RecordSplit :
    recs22.length = 20 ∧ 3 < (recs22.length + 4) / 5 ∧ 3 < ((recs22.take 18).length + 4) / 5 ∧ head22.length = 30 := by decide

/-- CONT_DECODE: an overlong input; 29 bytes; a header error; the capacity exceeded; a partial record 3 after three good
ones; too few chunks; the whole stream. -/
theorem witness_ContDecodeCommand :
    inputFits (st none (maxIn := some 40)).cfg (head22 ++ recs22) = false ∧
    inputFits (st none).cfg (head22 ++ recs22) = true ∧ (head22.take 29).length < 30 ∧ 30 ≤ (head22 ++ recs22).length ∧
    hdrDec ((head22.set 0 0x44 ++ recs22).take 30) = .error .illegalHeader ∧
    hdrDec ((head22 ++ recs22).take 30) = .ok { w := 2, h := 2, ck := 2375 } ∧
    (st none 3).cfg.maxChunks < recs22.length / 5 ∧ recs22.length / 5 ≤ (st none 4).cfg.maxChunks ∧
    3 < ((recs22.take 18).length + 4) / 5 ∧
    (∀ i, i < 3 → ∃ x, chunkDec (((recs22.take 18).drop (5 * i)).take 5) = .ok x) ∧
    chunkDec (((recs22.take 18).drop (5 * 3)).take 5) = .error .invalidLength ∧
    chunks22.length = (recs22.length + 4) / 5 ∧
    (∀ (j : Nat) (x : Chunk), chunks22[j]? = some x → chunkDec ((recs22.drop (5 * j)).take 5) = .ok x) ∧
    (recs22.length + 4) / 5 = (2 : Word64).toNat * (2 : Word64).toNat ∧
    ((recs22.take 15).length + 4) / 5 ≠ (2 : Word64).toNat * (2 : Word64).toNat := by
  refine ⟨by decide, by decide, by decide, by decide, by rfl, by rfl, by decide, by decide, by decide, ?_, by rfl, by decide,
    ?_, by decide, by decide⟩
  · intro i hi
    match i, hi with
    | 0, _ => exact ⟨_, rfl⟩
    | 1, _ => exact ⟨_, rfl⟩
    | 2, _ => exact ⟨_, rfl⟩
  · intro j x h
    match j with
    | 0 => cases h; rfl
    | 1 => cases h; rfl
    | 2 => cases h; rfl
    | 3 => cases h; rfl
    | j + 4 => simp [chunks22] at h

theorem witness_DecodeAcceptsExactlyEncodedStreams :
    inputFits (st none).cfg (head22 ++ recs22) = true ∧
    ([(0xAB, 0xCD, 0xEF), (0x12, 0x34, 0x56), (0x69, 0x42, 0x00), (0xDE, 0xAD, 0xA5)] : List (Byte × Byte × Byte)).length =
      (2 : Word64).toNat * (2 : Word64).toNat ∧
    4 ≤ (st none).cfg.maxChunks ∧
    head22 ++ recs22 = hdrRec 2 2 ++ ([(0xAB, 0xCD, 0xEF), (0x12, 0x34, 0x56), (0x69, 0x42, 0x00), (0xDE, 0xAD, 0xA5)] :
      List (Byte × Byte × Byte)).flatMap fun p => chunkRec p.1 p.2.1 p.2.2 := by
  exact ⟨by decide, by decide, by decide, by decide⟩

/-- MAX_IN_BYTES is exactly the length of the stream. -/
theorem witness_EncodeThenDecodeRestoresTheContainer :
    (st (some box22) 4 (some 50)).slot = some box22 ∧ box22.Valid (st (some box22) 4 (some 50)).cfg ∧
    box22.chunks.length = box22.hdr.w.toNat * box22.hdr.h.toNat ∧
    (∀ n, (st (some box22) 4 (some 50)).cfg.maxInBytes = some n → 30 + 5 * box22.chunks.length ≤ n) :=
  ⟨rfl, box22_valid _ (by decide) _, by decide, fun n h => by cases h; decide⟩

theorem witness_StagingStreamIsRejected :
    (st (some box21)).slot = some box21 ∧ box21.Valid (st (some box21)).cfg ∧
    box21.chunks.length ≠ box21.hdr.w.toNat * box21.hdr.h.toNat ∧
    (∀ n, (st (some box21)).cfg.maxInBytes = some n → 30 + 5 * box21.chunks.length ≤ n) :=
  ⟨rfl, box21_valid, by decide, fun n h => by cases h⟩

theorem witness_WhoEntersTheStagingState :
    (∃ t d, exec (.contRemoveAt 0) (st (some box22)) = .next t ∧ t.slot = some d ∧ d.staging ∧
      (∀ c, (st (some box22)).slot = some c → ¬ c.staging)) ∧
    (∃ t r d, exec (.contFromChunks 2 2 pixels) (st none) = .next t ∧ t.resp = some r ∧ r.st = 0 ∧ t.slot = some d) ∧
    (∃ t, exec (.contReplaceAt 3 0) (st (some box22)) = .next t ∧ (st (some box22)).slot = some box22) := by
  refine ⟨⟨_, _, rfl, rfl, ?_, ?_⟩, ⟨_, _, _, rfl, rfl, rfl, rfl⟩, ⟨_, rfl, rfl⟩⟩
  · unfold Container.staging; decide
  · intro c h; cases h; unfold Container.staging; decide

theorem witness_AppendingPixelsEqualsFromChunks :
    pixels.length = (2 : Word64).toNat * (2 : Word64).toNat ∧ pixels.length ≤ (st (some box11) 4).cfg.maxChunks ∧
    ({ st (some box11) 4 with host := .issue (encode (.contNewEmpty 2 2)) :: pixels.map (fun p => .issue (encode (.contAppend p))) } :
      State).host = .issue (encode (.contNewEmpty 2 2)) :: pixels.map (fun p => .issue (encode (.contAppend p))) :=
  ⟨by decide, by decide, rfl⟩

theorem witness_ErrorsWriteNothing :
    ∃ t r, (issuing (st (some box22)) { cw := 0x00000045, idx := 4 }).host = .issue { cw := 0x00000045, idx := 4 } :: [] ∧
      step (issuing (st (some box22)) { cw := 0x00000045, idx := 4 }) = .next t ∧ t.resp = some r ∧ r.st ≠ 0 :=
  ⟨_, _, rfl, rfl, rfl, by decide⟩

theorem witness_StatusesOfEachCommand :
    ∃ t r, exec (.contDecode head22) (st none) = .next t ∧ t.resp = some r ∧ r.st = 5 := ⟨_, _, rfl, rfl, rfl⟩

/-- The slots of CONT_REPLACE_AT in the other order, a blank after the comma, and a comment; CHUNK_DECODE with a bracketed
list; and a line that assembles. -/
theorem witness_AssembledLinesAreCommands :
    ([(SlotName.pix, "0xAbCdEf".toList), (SlotName.idx, "10".toList)].map Prod.fst).Perm (slotsRead (.contReplaceAt 10 0xABCDEF)) ∧
    SlotWritten (encode (.contReplaceAt 10 0xABCDEF)) .pix "0xAbCdEf".toList ∧
    SlotWritten (encode (.contReplaceAt 10 0xABCDEF)) .idx "10".toList ∧
    Blank [' '] ∧ CommentOrEnd " ; a comment".toList ∧
    lineText (mnemonicOf (.contReplaceAt 10 0xABCDEF)) [' '] [(.pix, "0xAbCdEf".toList), (.idx, "10".toList)] ++
      " ; a comment".toList = "CONT_REPLACE_AT PIX=0xAbCdEf, IDX=10 ; a comment".toList ∧
    SlotWritten (encode (.chunkDecode [0xFF, 7])) .inp "[0xFF,7]".toList ∧
    (∃ c, assemble "CONT_REPLACE_AT IDX=1, PIX=0x000000".toList = some c) := by
  refine ⟨List.Perm.swap _ _ _, ⟨['A', 'b', 'C', 'd', 'E', 'f'], rfl, rfl, by simp, [10, 11, 12, 13, 14, 15], ?_, by decide⟩,
    .inl ⟨by simp, [1, 0], ?_, by decide⟩, by simp [Blank], .inr ⟨[' '], _, by simp [Blank], rfl⟩, rfl,
    ⟨["0xFF".toList, "7".toList], rfl, ?_⟩, ⟨{ cw := 0x00000046, idx := 1 }, by decide +kernel⟩⟩
  · simp [IsDigit, lowerDigits, upperDigits]
  · simp [IsDigit, lowerDigits, upperDigits]
  · refine .cons (.inr ⟨['F', 'F'], rfl, by simp, [15, 15], ?_, by decide⟩) (.cons (.inl ⟨by simp, [7], ?_, by decide⟩) .nil)
    · simp [IsDigit, lowerDigits, upperDigits]
    · simp [IsDigit, lowerDigits, upperDigits]

end Sys2Proof.Tests
end

/-! ### Family 00_scope.md: the invariant of the block (R16) and the big-endian encoding (R11) -/

namespace Sys2Proof.Machine

/-! ### Byte order -/

/-- Byte i of `BE_n(v)`, counted from the most significant one; v may be any number. -/
theorem be_getElem? (v : Nat) {n i : Nat} (hi : i < n) :
    (be n v)[i]? = some (BitVec.ofNat 8 (v / 256 ^ (n - 1 - i))) := by
  induction n generalizing i with
  | zero => omega
  | succ n ih =>
    cases i with
    | zero => simp [be]
    | succ i => rw [be, List.getElem?_cons_succ, ih (by omega), show n + 1 - 1 - (i + 1) = n - 1 - i by omega]

/-- Settles O15: the length, the bytes and the two inverses are laws of `be` and `fromBE`, with 2^(8n) read as 256^n. -/
theorem bigEndianEncoding : Obligations.BigEndianEncoding := by
  unfold Obligations.BigEndianEncoding
  simp only [← pow256]
  exact ⟨fun n v hv => ⟨be_length n v, fromBE_be n v hv, fun _ hi => be_getElem? v hi⟩,
    fun s => ⟨fromBE_lt s, be_fromBE s⟩⟩

/-! ### What the record decoders accept satisfies the invariants -/

/-- An accepted chunk record gives a valid entry, whose record it is. -/
theorem chunkDec_ok {s : List Byte} {e : Chunk} (h : chunkDec s = .ok e) : e.valid ∧ e.record = s := by
  by_cases hl : s.length = 5
  · match s, hl with
    | [r, g, b, hi, lo], _ =>
      rw [chunkDec_five] at h
      split at h
      next hck =>
        cases h
        have hbe : be 2 (ck [r, g, b]).toNat = [hi, lo] := by
          rw [hck, BitVec.toNat_ofNat, show (2 : Nat) ^ 16 = 256 ^ 2 by norm_num, be_mod]
          exact be_fromBE [hi, lo]
        exact ⟨entry_valid r g b, congrArg (tripBytes r g b ++ ·) hbe⟩
      next => cases h
  · rw [chunkDec_length hl] at h; cases h

/-- Accepted records give valid entries, whose payload is the records one after the other. -/
theorem decodeRecs_ok {recs : List (List Byte)} {es : List Chunk} (h : decodeRecs recs = .ok es) :
    (∀ e ∈ es, e.valid) ∧ reencode es = recs.flatten := by
  induction recs generalizing es with
  | nil => cases h; simp
  | cons s rest ih =>
    rw [decodeRecs_cons] at h
    split at h
    next => cases h
    next e he =>
      split at h
      next => cases h
      next es' hes =>
        cases h
        obtain ⟨hvalid, hrec⟩ := chunkDec_ok he
        obtain ⟨hvalids, hrecs⟩ := ih hes
        exact ⟨List.forall_mem_cons.2 ⟨hvalid, hvalids⟩, by simp [hrec, hrecs]⟩

/-- An accepted header record gives a valid header. -/
theorem hdrDec_ok_valid {s : List Byte} {d : Header} (h : hdrDec s = .ok d) : d.valid := by
  by_cases hl : s.length = 30
  · obtain ⟨m, wb, hb, cb, hm, hw, hh, hc, rfl⟩ := parts_exist hl
    rw [hdrDec_parts hm hw hh hc] at h
    split at h
    next => cases h
    next =>
      split at h
      next => cases h
      next hck => cases h; exact (hdrRec_fromBE hw hh hc (not_not.1 hck)).2.symm
  · simp [hdrDec, hl] at h

/-! ### Valid responses -/

/-- A response with status OK is valid, whatever it delivers. -/
theorem Response.valid_of_ok {r : Response} (h : r.st = 0) : r.Valid :=
  ⟨by simp [h], fun hne => absurd h hne⟩

/-- The response of a raised error is valid, but for the error the block never raises. -/
theorem errResponse_valid {k : ErrKind} (hk : k ≠ .byteConversionFailure) (n : Nat) : (errResponse k n).Valid where
  code := by cases k <;> simp_all [ErrKind.code]
  defaults _ := errResponse_eq hk n

/-! No record decoder raises ByteConversionFailure (60_exceptions.md R181). -/

theorem chunkDec_err_ne {s : List Byte} {k : ErrKind} (h : chunkDec s = .error k) : k ≠ .byteConversionFailure := by
  obtain ⟨-, rfl⟩ | ⟨-, rfl⟩ := chunkDec_err h <;> decide

theorem decodeRecs_err_ne {recs : List (List Byte)} {k : ErrKind} (h : decodeRecs recs = .error k) :
    k ≠ .byteConversionFailure := by
  obtain rfl | rfl := decodeRecs_err h <;> decide

theorem hdrDec_err_ne {s : List Byte} {k : ErrKind} (h : hdrDec s = .error k) : k ≠ .byteConversionFailure := by
  obtain ⟨-, rfl⟩ | ⟨-, rfl⟩ | ⟨-, rfl⟩ := hdrDec_err h <;> decide

/-! ### Valid containers: one lemma for each command that writes the slot -/

section Container
variable {cfg : Config} {c : Container}

theorem Container.valid_empty (w h : Word64) : Container.Valid cfg { hdr := mkHeader w h, chunks := [], payload := [] } :=
  ⟨mkHeader_valid w h, by simp, rfl, Nat.zero_le _⟩

theorem Container.valid_fromChunks (w h : Word64) {trip : List Word24} (hcap : trip.length ≤ cfg.maxChunks) :
    Container.Valid cfg
      { hdr := mkHeader w h, chunks := trip.map entryOfPix, payload := reencode (trip.map entryOfPix) } where
  header := mkHeader_valid w h
  chunk := List.forall_mem_map.2 fun p _ => entryOfPix_valid p
  payload := rfl
  capacity := by simpa using hcap

theorem Container.Valid.append (hc : c.Valid cfg) (hroom : c.chunks.length ≠ cfg.maxChunks) {e : Chunk} (he : e.valid) :
    Container.Valid cfg { c with chunks := c.chunks ++ [e], payload := c.payload ++ e.record } where
  header := hc.header
  chunk := List.forall_mem_append.2 ⟨hc.chunk, by simpa using he⟩
  payload := by simp [hc.payload]
  capacity := by simpa using lt_of_le_of_ne hc.capacity hroom

theorem Container.Valid.eraseIdx (hc : c.Valid cfg) (i : Nat) :
    Container.Valid cfg { c with chunks := c.chunks.eraseIdx i, payload := reencode (c.chunks.eraseIdx i) } where
  header := hc.header
  chunk e he := hc.chunk e (List.mem_of_mem_eraseIdx he)
  payload := rfl
  capacity := le_trans (List.length_eraseIdx_le c.chunks i) hc.capacity

theorem Container.Valid.set (hc : c.Valid cfg) (i : Nat) {e : Chunk} (he : e.valid) :
    Container.Valid cfg { c with chunks := c.chunks.set i e, payload := reencode (c.chunks.set i e) } where
  header := hc.header
  chunk x hx := (List.mem_or_eq_of_mem_set hx).elim (hc.chunk x) fun hxe => hxe ▸ he
  payload := rfl
  capacity := by simpa using hc.capacity

/-- The accepted stream is its own payload; so its length bounds the number of chunks. -/
theorem Container.valid_decoded {d : Header} {rest : List Byte} {es : List Chunk} (hd : d.valid)
    (hes : decodeRecs (split5 rest) = .ok es) (hcap : rest.length / 5 ≤ cfg.maxChunks) :
    Container.Valid cfg { hdr := d, chunks := es, payload := rest } := by
  obtain ⟨hvalid, hrest⟩ := decodeRecs_ok hes
  rw [split5_flatten] at hrest
  have hlen : 5 * es.length = rest.length := by rw [← hrest, reencode_length]
  exact ⟨hd, hvalid, hrest.symm, show es.length ≤ cfg.maxChunks by omega⟩

end Container

/-! ### The invariant under the state's updates -/

section Invariant
variable {s t : State}

theorem State.Inv.answer (hs : s.Inv) {r : Response} (hr : r.Valid) (b : Bool) : (s.answer b r).Inv :=
  ⟨hs.cfg, hs.slot, by simpa using hr⟩

theorem State.Inv.load (hs : s.Inv) {c : Container} (hc : c.Valid s.cfg) : (s.load c).Inv :=
  ⟨hs.cfg, by simpa using hc, hs.resp⟩

theorem State.Inv.setHost (hs : s.Inv) (rest : List HostAct) : State.Inv { s with host := rest } :=
  ⟨hs.cfg, hs.slot, hs.resp⟩

theorem State.Inv.applyReset (hs : s.Inv) : (applyReset s).Inv :=
  ⟨hs.cfg, by simp, by simp⟩

/-- A command that delivers a result and keeps the slot keeps the invariant. -/
theorem State.Inv.answer_ok (hs : s.Inv) {r : Response} (hr : r.st = 0) (b : Bool) : (s.answer b r).Inv :=
  hs.answer (Response.valid_of_ok hr) b

/-- A raised error keeps the invariant. -/
theorem State.Inv.answer_err (hs : s.Inv) {k : ErrKind} (hk : k ≠ .byteConversionFailure) (b : Bool) (n : Nat) :
    (s.answer b (errResponse k n)).Inv :=
  hs.answer (errResponse_valid hk n) b

/-- Every command that completes keeps the invariant: by its inversion it raises an error, delivers a result with the
slot as it was, or loads a container that is valid. -/
theorem exec_keeps_inv {i : Instr} (hs : s.Inv) (h : exec i s = .next t) : t.Inv := by
  cases i with
  | checksum inp => obtain ⟨-, rfl⟩ := execChecksum_next.1 h; exact hs.answer_ok rfl _
  | pixelEncode pix => rw [execPixelEncode_next.1 h]; exact hs.answer_ok rfl _
  | chunkNew pix => rw [execChunkNew_next.1 h]; exact hs.answer_ok rfl _
  | chunkEncode pix => rw [execChunkEncode_next.1 h]; exact hs.answer_ok rfl _
  | chunkDecode inp =>
    obtain ⟨-, ⟨k, hk, rfl⟩ | ⟨e, -, rfl⟩⟩ := execChunkDecode_next.1 h
    · exact hs.answer_err (chunkDec_err_ne hk) _ _
    · exact hs.answer_ok rfl _
  | headerNew w h' => rw [execHeaderNew_next.1 h]; exact hs.answer_ok rfl _
  | headerEncode w h' => rw [execHeaderEncode_next.1 h]; exact hs.answer_ok rfl _
  | headerDecode inp =>
    obtain ⟨-, ⟨k, hk, rfl⟩ | ⟨d, -, rfl⟩⟩ := execHeaderDecode_next.1 h
    · exact hs.answer_err (hdrDec_err_ne hk) _ _
    · exact hs.answer_ok rfl _
  | contNewEmpty w h' =>
    rw [execContNewEmpty_next.1 h]
    exact (hs.load (Container.valid_empty w h')).answer_ok rfl _
  | contFromChunks w h' trip =>
    obtain ⟨hcap, ⟨-, rfl⟩ | ⟨-, rfl⟩⟩ := execContFromChunks_next.1 h
    · exact hs.answer_err (by decide) _ _
    · exact (hs.load (Container.valid_fromChunks w h' hcap)).answer_ok rfl _
  | contDimensions => obtain ⟨c, -, rfl⟩ := execContDimensions_next.1 h; exact hs.answer_ok rfl _
  | contAppend pix =>
    obtain ⟨c, hc, hroom, rfl⟩ := execContAppend_next.1 h
    exact (hs.load ((hs.slot c hc).append hroom (entryOfPix_valid pix))).answer_ok rfl _
  | contGetAt idx =>
    obtain ⟨c, -, rfl⟩ := execContGetAt_next.1 h
    exact hs.answer_ok (by split <;> rfl) _
  | contRemoveAt idx =>
    obtain ⟨c, hc, ⟨-, rfl⟩ | ⟨-, rfl⟩⟩ := execContRemoveAt_next.1 h
    · exact hs.answer_err (by decide) _ _
    · exact (hs.load ((hs.slot c hc).eraseIdx _)).answer_ok rfl _
  | contReplaceAt idx pix =>
    obtain ⟨c, hc, ⟨-, rfl⟩ | ⟨-, rfl⟩⟩ := execContReplaceAt_next.1 h
    · exact hs.answer_err (by decide) _ _
    · exact (hs.load ((hs.slot c hc).set _ (entryOfPix_valid pix))).answer_ok rfl _
  | contEncode => obtain ⟨c, -, rfl⟩ := execContEncode_next.1 h; exact hs.answer_ok rfl _
  | contDecode inp =>
    obtain ⟨-, ⟨-, rfl⟩ | ⟨-, ⟨k, hk, rfl⟩ | ⟨d, hd, hcap, ⟨k, hk, rfl⟩ | ⟨es, hes, ⟨-, rfl⟩ | ⟨-, rfl⟩⟩⟩⟩⟩ :=
      execContDecode_next.1 h
    · exact hs.answer_err (by decide) _ _
    · exact hs.answer_err (hdrDec_err_ne hk) _ _
    · exact hs.answer_err (decodeRecs_err_ne hk) _ _
    · exact hs.answer_err (by decide) _ _
    · exact (hs.load (Container.valid_decoded (hdrDec_ok_valid hd) hes hcap)).answer_ok rfl _

end Invariant

/-- Settles O12: an idle step changes nothing, a reset empties slot and response, an illegal word raises an error, and a
command keeps the invariant by `exec_keeps_inv`. -/
theorem everyStepKeepsTheInvariant : Obligations.EveryStepKeepsTheInvariant := by
  unfold Obligations.EveryStepKeepsTheInvariant
  intro s t hs h
  match hhost : s.host with
  | [] => rw [step_idle hhost] at h; cases h; exact hs
  | .reset :: rest => rw [step_reset hhost] at h; cases h; exact (hs.setHost rest).applyReset
  | .issue c :: rest =>
    rw [step_issue hhost] at h
    split at h
    next => rw [raise_eq_next.1 h]; exact (hs.setHost rest).answer_err (by decide) _ _
    next => exact exec_keeps_inv (hs.setHost rest) h

/-- Settles O11: the build of reset is legal, and there is neither container nor response. -/
theorem resetSatisfiesTheInvariant : Obligations.ResetSatisfiesTheInvariant := by
  unfold Obligations.ResetSatisfiesTheInvariant
  exact ⟨by decide, by simp, by simp⟩

end Sys2Proof.Machine

/-! ### Family 10_state.md: what a step writes (R21, R22, R28, R31) and what a command reads (R28, R30) -/

namespace Sys2Proof.Machine

/-! ### The step, each way it completes -/

section Step
variable {s t : State} {c : Command} {rest : List HostAct}

/-- A command word that decodes to nothing raises IllegalCommand (60_exceptions.md R188). -/
theorem step_illegal (hhost : s.host = .issue c :: rest) (hill : ∀ i, decode c ≠ .ok i) :
    step s = answerIllegal { s with host := rest } := by
  rw [step_issue hhost]
  cases hd : decode c with
  | error _ => rfl
  | ok i => exact absurd hd (hill i)

/-- A legal command word runs its instruction. -/
theorem step_legal {i : Instr} (hhost : s.host = .issue c :: rest) (hd : decode c = .ok i) :
    step s = exec i { s with host := rest } := by
  simp [step_issue hhost, hd]

/-- A step that completes was idle, a reset, an illegal command word or a command. -/
theorem step_next_cases (h : step s = .next t) :
    (s.host = [] ∧ t = s) ∨
    (∃ rest, s.host = .reset :: rest ∧ t = applyReset { s with host := rest }) ∨
    (∃ c rest, s.host = .issue c :: rest ∧ (∀ i, decode c ≠ .ok i) ∧
      t = { s with host := rest }.answer false (errResponse .illegalCommand s.draws)) ∨
    (∃ c rest i, s.host = .issue c :: rest ∧ decode c = .ok i ∧ exec i { s with host := rest } = .next t) := by
  match hhost : s.host with
  | [] => rw [step_idle hhost] at h; cases h; exact .inl ⟨rfl, rfl⟩
  | .reset :: rest => rw [step_reset hhost] at h; cases h; exact .inr (.inl ⟨rest, rfl, rfl⟩)
  | .issue c :: rest =>
    by_cases hlegal : ∃ i, decode c = .ok i
    · obtain ⟨i, hd⟩ := hlegal
      exact .inr (.inr (.inr ⟨c, rest, i, rfl, hd, step_legal hhost hd ▸ h⟩))
    · have hill := not_exists.1 hlegal
      rw [step_illegal hhost hill] at h
      exact .inr (.inr (.inl ⟨c, rest, rfl, hill, raise_eq_next.1 h⟩))

end Step

/-- Settles O10: an idle step and a reset by their definitions; an illegal word and a command only answer, and move the
slot, in the state whose first action is taken. -/
theorem stepTakesOneActionAndKeepsTheBuild : Obligations.StepTakesOneActionAndKeepsTheBuild := by
  unfold Obligations.StepTakesOneActionAndKeepsTheBuild
  intro s t h
  obtain ⟨hhost, rfl⟩ | ⟨rest, hhost, rfl⟩ | ⟨c, rest, hhost, -, rfl⟩ | ⟨c, rest, i, hhost, -, hx⟩ := step_next_cases h
  · simp [hhost]
  · simp [hhost]
  · simp [hhost]
  · obtain ⟨b, r, slot, rfl⟩ := exec_next_shape hx
    simp [hhost]

/-! ### How a completed command leaves the state -/

/-- The four ways the instruction i, performed in s, completes: it raises an error, or it answers OK and keeps the slot,
rewrites the container but not its header, or loads a new container. -/
inductive Ending (i : Instr) (s : State) : State → Prop where
  /-- The slot is as before (60_exceptions.md R185). IllegalHeader and NonExistentChunk (ST = 3, 4) are found before any
  checksum is evaluated, and ByteConversionFailure never (42_header.md R124). -/
  | raised (k : ErrKind) (b : Bool) (hk : k ≠ .byteConversionFailure) (hb : k.code = 3 ∨ k.code = 4 → b = false) :
      Ending i s (s.answer b (errResponse k s.draws))
  | kept (b : Bool) (r : Response) (hr : r.st = 0) (hi : ¬ isConstructor i) : Ending i s (s.answer b r)
  | rewritten (c d : Container) (b : Bool) (r : Response) (hr : r.st = 0) (hi : ¬ isConstructor i)
      (hc : s.slot = some c) (hd : d.hdr = c.hdr) : Ending i s ((s.load d).answer b r)
  | constructed (d : Container) (b : Bool) (r : Response) (hr : r.st = 0) (hi : isConstructor i) :
      Ending i s ((s.load d).answer b r)

/-- An error of a record decoder with ST = 3 or 4 leaves the checksum registers. -/
theorem ckRanBefore_eq_false {k : ErrKind} (h : k.code = 3 ∨ k.code = 4) : ckRanBefore k = false := by
  refine beq_eq_false_iff_ne.2 ?_
  rintro rfl
  exact absurd h (by decide)

section Ending
variable {s t : State} {i : Instr}

theorem exec_ending (h : exec i s = .next t) : Ending i s t := by
  cases i with
  | checksum inp => obtain ⟨-, rfl⟩ := execChecksum_next.1 h; exact .kept _ _ rfl not_false
  | pixelEncode pix => rw [execPixelEncode_next.1 h]; exact .kept _ _ rfl not_false
  | chunkNew pix => rw [execChunkNew_next.1 h]; exact .kept _ _ rfl not_false
  | chunkEncode pix => rw [execChunkEncode_next.1 h]; exact .kept _ _ rfl not_false
  | chunkDecode inp =>
    obtain ⟨-, ⟨k, hk, rfl⟩ | ⟨e, -, rfl⟩⟩ := execChunkDecode_next.1 h
    · exact .raised k _ (chunkDec_err_ne hk) ckRanBefore_eq_false
    · exact .kept _ _ rfl not_false
  | headerNew w h' => rw [execHeaderNew_next.1 h]; exact .kept _ _ rfl not_false
  | headerEncode w h' => rw [execHeaderEncode_next.1 h]; exact .kept _ _ rfl not_false
  | headerDecode inp =>
    obtain ⟨-, ⟨k, hk, rfl⟩ | ⟨d, -, rfl⟩⟩ := execHeaderDecode_next.1 h
    · exact .raised k _ (hdrDec_err_ne hk) ckRanBefore_eq_false
    · exact .kept _ _ rfl not_false
  | contNewEmpty w h' => rw [execContNewEmpty_next.1 h]; exact .constructed _ _ _ rfl trivial
  | contFromChunks w h' trip =>
    obtain ⟨-, ⟨-, rfl⟩ | ⟨-, rfl⟩⟩ := execContFromChunks_next.1 h
    · exact .raised _ _ (by decide) fun _ => rfl
    · exact .constructed _ _ _ rfl trivial
  | contDimensions => obtain ⟨c, -, rfl⟩ := execContDimensions_next.1 h; exact .kept _ _ rfl not_false
  | contAppend pix =>
    obtain ⟨c, hc, -, rfl⟩ := execContAppend_next.1 h
    exact .rewritten c _ _ _ rfl not_false hc rfl
  | contGetAt idx =>
    obtain ⟨c, -, rfl⟩ := execContGetAt_next.1 h
    exact .kept _ _ (by split <;> rfl) not_false
  | contRemoveAt idx =>
    obtain ⟨c, hc, ⟨-, rfl⟩ | ⟨-, rfl⟩⟩ := execContRemoveAt_next.1 h
    · exact .raised _ _ (by decide) fun _ => rfl
    · exact .rewritten c _ _ _ rfl not_false hc rfl
  | contReplaceAt idx pix =>
    obtain ⟨c, hc, ⟨-, rfl⟩ | ⟨-, rfl⟩⟩ := execContReplaceAt_next.1 h
    · exact .raised _ _ (by decide) fun _ => rfl
    · exact .rewritten c _ _ _ rfl not_false hc rfl
  | contEncode => obtain ⟨c, -, rfl⟩ := execContEncode_next.1 h; exact .kept _ _ rfl not_false
  | contDecode inp =>
    obtain ⟨-, ⟨-, rfl⟩ | ⟨-, ⟨k, hk, rfl⟩ | ⟨d, -, -, ⟨k, hk, rfl⟩ | ⟨es, -, ⟨-, rfl⟩ | ⟨-, rfl⟩⟩⟩⟩⟩ :=
      execContDecode_next.1 h
    · exact .raised _ _ (by decide) fun _ => rfl
    · exact .raised k _ (hdrDec_err_ne hk) ckRanBefore_eq_false
    · exact .raised k _ (decodeRecs_err_ne hk) (by obtain rfl | rfl := decodeRecs_err hk <;> decide)
    · exact .raised _ _ (by decide) (by decide)
    · exact .constructed _ _ _ rfl trivial

/-- A constructor that answers OK has loaded the slot. -/
theorem Ending.slot_ne_none (h : Ending i s t) {r : Response} (hr : t.resp = some r) (hi : isConstructor i)
    (hst : r.st = 0) : t.slot ≠ none := by
  cases h with
  | raised k b hk hb => cases hr; exact absurd hst (code_ne_zero k)
  | kept b r hr hn => exact absurd hi hn
  | rewritten c d b r hr hn hc hd => simp
  | constructed d b r hr hi => simp

/-- What fills an empty slot is a constructor that answers OK. -/
theorem Ending.constructor_of_filled (h : Ending i s t) (hs : s.slot = none) (ht : t.slot ≠ none) :
    isConstructor i ∧ ∃ r, t.resp = some r ∧ r.st = 0 := by
  cases h with
  | raised k b hk hb => exact absurd hs ht
  | kept b r hr hn => exact absurd hs ht
  | rewritten c d b r hr hn hc hd => simp [hs] at hc
  | constructed d b r hr hi => exact ⟨hi, r, rfl, hr⟩

/-- No command empties a loaded slot. -/
theorem Ending.slot_eq_none (h : Ending i s t) (ht : t.slot = none) : s.slot = none := by
  cases h with
  | raised k b hk hb => exact ht
  | kept b r hr hn => exact ht
  | rewritten c d b r hr hn hc hd => simp at ht
  | constructed d b r hr hi => simp at ht

/-- A command other than a constructor keeps the header of a loaded slot, and an empty slot empty. -/
theorem Ending.header_kept (h : Ending i s t) (hi : ¬ isConstructor i) :
    t.slot.map Container.hdr = s.slot.map Container.hdr := by
  cases h with
  | raised k b hk hb => rfl
  | kept b r hr hn => rfl
  | rewritten c d b r hr hn hc hd => simp [hc, hd]
  | constructed d b r hr hc => exact absurd hc hi

/-- A command that answers ST = 3 or 4 leaves the checksum registers. -/
theorem Ending.engine_kept (h : Ending i s t) {r : Response} (hr : t.resp = some r) (hst : r.st = 3 ∨ r.st = 4) :
    t.engine = s.engine := by
  have ok : ∀ {q : Response}, some q = some r → q.st ≠ 0 := by rintro q ⟨rfl⟩ hq; simp [hq] at hst
  cases h with
  | raised k b hk hb => cases hr; rw [hb hst]; rfl
  | kept b q hq hn => exact absurd hq (ok hr)
  | rewritten c d b q hq hn hc hd => exact absurd hq (ok hr)
  | constructed d b q hq hi => exact absurd hq (ok hr)

end Ending

/-- Settles O7: the slot moves as `Ending` says of a command; an idle step and an illegal word keep it, a reset empties
it, and the slot guard of the six readers faults on an empty one. -/
theorem onlyConstructorsAndResetMoveCvalid : Obligations.OnlyConstructorsAndResetMoveCvalid := by
  unfold Obligations.OnlyConstructorsAndResetMoveCvalid
  refine ⟨rfl, fun i s t r h hr hi hst => (exec_ending h).slot_ne_none hr hi hst, ?filled, ?emptied, ?readers⟩
  case filled =>
    intro s t h hs ht
    obtain ⟨-, rfl⟩ | ⟨rest, -, rfl⟩ | ⟨c, rest, -, -, rfl⟩ | ⟨c, rest, i, hhost, hd, hx⟩ := step_next_cases h
    · exact absurd hs ht
    · exact absurd rfl ht
    · exact absurd hs ht
    · obtain ⟨hi, r, hr, hst⟩ := (exec_ending hx).constructor_of_filled hs ht
      exact ⟨c, rest, i, r, hhost, hd, hi, hr, hst⟩
  case emptied =>
    intro s t h hs ht
    obtain ⟨-, rfl⟩ | ⟨rest, hhost, -⟩ | ⟨c, rest, -, -, rfl⟩ | ⟨c, rest, i, -, -, hx⟩ := step_next_cases h
    · exact absurd ht hs
    · exact ⟨rest, hhost⟩
    · exact absurd ht hs
    · exact absurd ((exec_ending hx).slot_eq_none ht) hs
  case readers =>
    intro s pix idx hs
    have guard := @withContainer_none s hs
    exact ⟨guard _, guard _, guard _, guard _, guard _, guard _⟩

/-- Settles O8: both clauses read `Ending.header_kept`, the one on a loaded slot and the other on an empty one. -/
theorem onlyConstructorsWriteTheHeader : Obligations.OnlyConstructorsWriteTheHeader := by
  unfold Obligations.OnlyConstructorsWriteTheHeader
  intro i s t h
  refine ⟨fun hi c hc => ?_, fun hi hs => ?_⟩
  · have hkept := (exec_ending h).header_kept hi
    rwa [hc, Option.map_some, Option.map_eq_some_iff] at hkept
  · have hkept := (exec_ending h).header_kept hi
    rwa [hs, Option.map_none, Option.map_eq_none_iff] at hkept

/-! ### Errors before any checksum -/

theorem hdrDec_length {s : List Byte} (h : s.length ≠ 30) : hdrDec s = .error .invalidLength :=
  if_pos h

/-- Settles O9: each of these endings answers with `ckRan = false`, as the inversion of the command says; for ST = 3 and 4
see `Ending.raised`. -/
theorem checksumRegistersKeptWithoutEvaluation : Obligations.ChecksumRegistersKeptWithoutEvaluation := by
  unfold Obligations.ChecksumRegistersKeptWithoutEvaluation
  refine ⟨?noEvaluation, fun i s t r h hr hst => (exec_ending h).engine_kept hr hst, ?fromChunks, ?chunkDecode,
    ?headerDecode, ?contDecode, ?illegal⟩
  case noEvaluation =>
    rintro s t pix idx (h | h | h | h)
    · rw [execPixelEncode_next.1 h]; rfl
    · obtain ⟨c, -, rfl⟩ := execContDimensions_next.1 h; rfl
    · obtain ⟨c, -, rfl⟩ := execContGetAt_next.1 h; rfl
    · obtain ⟨c, -, ⟨-, rfl⟩ | ⟨-, rfl⟩⟩ := execContRemoveAt_next.1 h <;> rfl
  case fromChunks =>
    intro s t w h trip r hx hr hst
    obtain ⟨-, ⟨-, rfl⟩ | ⟨-, rfl⟩⟩ := execContFromChunks_next.1 hx
    · rfl
    · cases hr; exact absurd hst (by decide)
  case chunkDecode =>
    intro s t inp hlen hx
    obtain ⟨-, ⟨k, hk, rfl⟩ | ⟨e, he, -⟩⟩ := execChunkDecode_next.1 hx
    · rw [chunkDec_length hlen] at hk; cases hk; rfl
    · rw [chunkDec_length hlen] at he; cases he
  case headerDecode =>
    intro s t inp hlen hx
    obtain ⟨-, ⟨k, hk, rfl⟩ | ⟨d, hd, -⟩⟩ := execHeaderDecode_next.1 hx
    · rw [hdrDec_length hlen] at hk; cases hk; rfl
    · rw [hdrDec_length hlen] at hd; cases hd
  case contDecode =>
    intro s t inp hlen hx
    obtain ⟨-, ⟨-, rfl⟩ | ⟨h30, -⟩⟩ := execContDecode_next.1 hx
    · rfl
    · omega
  case illegal =>
    intro s t c rest hhost hill h
    rw [step_illegal hhost hill] at h
    rw [raise_eq_next.1 h]; rfl

/-! ### What a command reads -/

/-- The result o' shows what the result o shows: the same response and slot, or the same fault. -/
def Agrees (o o' : Result) : Prop :=
  (∀ t, o = .next t → ∃ t', o' = .next t' ∧ t'.resp = t.resp ∧ t'.slot = t.slot) ∧
  (∀ f, o = .fault f → o' = .fault f)

section Agrees
variable {s s' : State}

theorem Agrees.refl (o : Result) : Agrees o o :=
  ⟨fun t h => ⟨t, h, rfl, rfl⟩, fun _ h => h⟩

theorem Agrees.finish (hslot : s.slot = s'.slot) (b : Bool) (r : Response) : Agrees (finish s b r) (finish s' b r) :=
  ⟨fun t h => ⟨s'.answer b r, rfl, by simp [finish_eq_next.1 h], by simp [finish_eq_next.1 h, hslot]⟩,
    fun f h => absurd h (finish_ne_fault s b r f)⟩

theorem Agrees.finish_load (c : Container) (b : Bool) (r : Response) :
    Agrees (Machine.finish (s.load c) b r) (Machine.finish (s'.load c) b r) :=
  .finish (s := s.load c) (s' := s'.load c) rfl b r

/-- The error response reads the model's counter for ST = 6 only, which no command answers. -/
theorem Agrees.raise (hslot : s.slot = s'.slot) (b : Bool) {k : ErrKind} (hk : k ≠ .byteConversionFailure) :
    Agrees (raise s b k) (raise s' b k) := by
  unfold Machine.raise
  rw [errResponse_eq hk, errResponse_eq hk]
  exact .finish hslot b _

theorem Agrees.ite {p p' : Prop} [Decidable p] [Decidable p'] {a a' o o' : Result} (hp : p ↔ p') (ha : Agrees a a')
    (ho : Agrees o o') : Agrees (if p then a else o) (if p' then a' else o') := by
  by_cases h : p
  · rwa [if_pos h, if_pos (hp.1 h)]
  · rwa [if_neg h, if_neg (mt hp.2 h)]

theorem Agrees.withInput (hcfg : s.cfg = s'.cfg) (inp : List Byte) {o o' : Result} (h : Agrees o o') :
    Agrees (withInput s inp o) (withInput s' inp o') :=
  .ite (by rw [hcfg]) h (.refl _)

theorem Agrees.withContainer (hslot : s.slot = s'.slot) {cmd cmd' : Container → Result}
    (h : ∀ c, Agrees (cmd c) (cmd' c)) : Agrees (withContainer s cmd) (withContainer s' cmd') := by
  cases hs : s.slot with
  | none => rw [withContainer_none hs, withContainer_none (hslot ▸ hs)]; exact .refl _
  | some c => rw [withContainer_some hs, withContainer_some (hslot ▸ hs)]; exact h c

/-- Every command is built from guards on the slot and the build, and from endings that show the slot and a response
computed from the operands and the container: so it shows the same in states that share slot and build. -/
theorem exec_agrees (hslot : s.slot = s'.slot) (hcfg : s.cfg = s'.cfg) (i : Instr) :
    Agrees (exec i s) (exec i s') := by
  cases i with
  | checksum inp => exact .withInput hcfg inp (.finish hslot _ _)
  | pixelEncode pix => exact .finish hslot _ _
  | chunkNew pix => exact .finish hslot _ _
  | chunkEncode pix => exact .finish hslot _ _
  | chunkDecode inp =>
    refine .withInput hcfg inp ?_
    cases hdec : chunkDec inp with
    | error k => exact .raise hslot _ (chunkDec_err_ne hdec)
    | ok e => exact .finish hslot _ _
  | headerNew w h => exact .finish hslot _ _
  | headerEncode w h => exact .finish hslot _ _
  | headerDecode inp =>
    refine .withInput hcfg inp ?_
    cases hdec : hdrDec inp with
    | error k => exact .raise hslot _ (hdrDec_err_ne hdec)
    | ok d => exact .finish hslot _ _
  | contNewEmpty w h => exact .finish_load _ _ _
  | contFromChunks w h trip =>
    exact .ite (by rw [hcfg]) (.refl _) (.ite .rfl (.raise hslot _ (by decide)) (.finish_load _ _ _))
  | contDimensions => exact .withContainer hslot fun c => .finish hslot _ _
  | contAppend pix =>
    exact .withContainer hslot fun c => .ite (by rw [hcfg]) (.refl _) (.finish_load _ _ _)
  | contGetAt idx =>
    refine .withContainer hslot fun c => ?_
    cases c.chunks[idx.toNat]? with
    | none => exact .finish hslot _ _
    | some e => exact .finish hslot _ _
  | contRemoveAt idx =>
    exact .withContainer hslot fun c => .ite .rfl (.finish_load _ _ _) (.raise hslot _ (by decide))
  | contReplaceAt idx pix =>
    exact .withContainer hslot fun c => .ite .rfl (.finish_load _ _ _) (.raise hslot _ (by decide))
  | contEncode => exact .withContainer hslot fun c => .finish hslot _ _
  | contDecode inp =>
    refine .withInput hcfg inp (.ite .rfl (.raise hslot _ (by decide)) ?_)
    cases hdec : hdrDec (memRead inp 0 30) with
    | error k => exact .raise hslot _ (hdrDec_err_ne hdec)
    | ok d =>
      refine .ite (by rw [hcfg]) (.refl _) ?_
      cases hrecs : decodeRecs (split5 (inp.drop 30)) with
      | error k => exact .raise hslot _ (decodeRecs_err_ne hrecs)
      | ok es => exact .ite .rfl (.raise hslot _ (by decide)) (.finish_load _ _ _)

end Agrees

/-- Settles O13: the two clauses are the two halves of `Agrees`. -/
theorem commandsReadOnlySlotAndBuild : Obligations.CommandsReadOnlySlotAndBuild := by
  unfold Obligations.CommandsReadOnlySlotAndBuild
  exact fun i s s' hslot hcfg => exec_agrees hslot hcfg i

end Sys2Proof.Machine

/-! ### Family 20_memory.md: the header checksum field (R45), repeated commands (R50), the container stream (R51) -/

namespace Sys2Proof.Machine

/-! ### The checksum field of a header record (R45) -/

/-- Bytes 26 to 29 of a header record the block writes. -/
theorem hdrRec_drop_26 (w h : Word64) : (hdrRec w h).drop 26 =
    [0, 0, (ck (be 8 w.toNat ++ be 8 h.toNat)).extractLsb' 8 8, (ck (be 8 w.toNat ++ be 8 h.toNat)).extractLsb' 0 8] := by
  obtain ⟨-, -, -, hck, -⟩ := hdr_parts_take w h
  rw [hck, hdrCk, be4, be_two]
  rfl

/-- An accepted header record is the one the block writes for the dimensions read from it. -/
theorem hdrDec_ok_eq_hdrRec {s : List Byte} {d : Header} (hd : hdrDec s = .ok d) : s = hdrRec d.w d.h := by
  by_cases hl : s.length = 30
  · obtain ⟨m, wb, hb, cb, hm, hw, hh, hc, rfl⟩ := parts_exist hl
    rw [hdrDec_parts hm hw hh hc] at hd
    split at hd
    next => cases hd
    next hmagic =>
      split at hd
      next => cases hd
      next hck =>
        cases hd
        rw [not_not.1 hmagic]
        exact (hdrRec_fromBE hw hh hc (not_not.1 hck)).1.symm
  · rw [hdrDec_length hl] at hd; cases hd

/-- With the length and the magic right, only the checksum is left to fail (42_header.md R122). -/
theorem hdrDec_of_magic {s : List Byte} (hl : s.length = 30) (hmagic : s.take 10 = magic) :
    hdrDec s = .error .checksumMismatch ∨ ∃ d, hdrDec s = .ok d := by
  obtain ⟨m, wb, hb, cb, hm, hw, hh, hc, rfl⟩ := parts_exist hl
  have hfield : m = magic := (slice_split hm hw hh hc).1.symm.trans hmagic
  rw [hdrDec_parts hm hw hh hc, if_neg (not_not.2 hfield)]
  split
  next => exact .inl rfl
  next => exact .inr ⟨_, rfl⟩

/-- Settles O31: an accepted record is a record the block writes, so its checksum field has two zero bytes and then the
16-bit checksum; with another byte 26 or 27 the record is not accepted, and under the magic only the checksum can fail. -/
theorem headerChecksumMixedWidth : Obligations.HeaderChecksumMixedWidth := by
  unfold Obligations.HeaderChecksumMixedWidth
  refine ⟨hdrRec_drop_26, ?decoded, ?mismatch⟩
  case decoded =>
    intro s d hd
    have hvalid : d.ck = hdrCk d.w d.h := hdrDec_ok_valid hd
    obtain ⟨-, -, -, hfield, hdims⟩ := hdr_parts_take d.w d.h
    rw [hdrDec_ok_eq_hdrRec hd, hfield, hdims, fromBE_be 4 _ (by simpa using (hdrCk d.w d.h).isLt), hvalid]
    exact ⟨rfl, rfl⟩
  case mismatch =>
    intro s x y hl hmagic hx hy hxy
    obtain hbad | ⟨d, hd⟩ := hdrDec_of_magic hl hmagic
    · exact hbad
    · have hfield := hdrRec_drop_26 d.w d.h
      rw [← hdrDec_ok_eq_hdrRec hd] at hfield
      have hx0 : x = 0 := by simpa [hx] using List.ext_getElem?_iff.1 hfield 0
      have hy0 : y = 0 := by simpa [hy] using List.ext_getElem?_iff.1 hfield 1
      exact absurd hxy (not_or.2 ⟨not_not.2 hx0, not_not.2 hy0⟩)

/-! ### Repeating a command (R50) -/

/-- The command i, performed in t, completes with the slot and the response that t already shows. -/
def Repeats (i : Instr) (t : State) : Prop := ∃ u, exec i t = .next u ∧ u.slot = t.slot ∧ u.resp = t.resp

section Repeats
variable {s t : State} {i : Instr}

theorem exec_cfg (h : exec i s = .next t) : t.cfg = s.cfg := by
  obtain ⟨b, r, c, rfl⟩ := exec_next_shape h
  rfl

/-- A command that is not among the slot writers (10_state.md R36) only answers. -/
theorem exec_slot_of_not_writesSlot (h : exec i s = .next t) (hi : ¬ writesSlot i) : t.slot = s.slot := by
  cases i with
  | checksum inp => obtain ⟨-, rfl⟩ := execChecksum_next.1 h; rfl
  | pixelEncode pix => rw [execPixelEncode_next.1 h]; rfl
  | chunkNew pix => rw [execChunkNew_next.1 h]; rfl
  | chunkEncode pix => rw [execChunkEncode_next.1 h]; rfl
  | chunkDecode inp => obtain ⟨-, ⟨k, -, rfl⟩ | ⟨e, -, rfl⟩⟩ := execChunkDecode_next.1 h <;> rfl
  | headerNew w h' => rw [execHeaderNew_next.1 h]; rfl
  | headerEncode w h' => rw [execHeaderEncode_next.1 h]; rfl
  | headerDecode inp => obtain ⟨-, ⟨k, -, rfl⟩ | ⟨d, -, rfl⟩⟩ := execHeaderDecode_next.1 h <;> rfl
  | contDimensions => obtain ⟨c, -, rfl⟩ := execContDimensions_next.1 h; rfl
  | contGetAt idx => obtain ⟨c, -, rfl⟩ := execContGetAt_next.1 h; rfl
  | contEncode => obtain ⟨c, -, rfl⟩ := execContEncode_next.1 h; rfl
  | contNewEmpty | contFromChunks | contAppend | contRemoveAt | contReplaceAt | contDecode => exact absurd trivial hi

/-- A command that kept the slot finds on repetition what it found before: it reads the slot and the build alone. -/
theorem repeats_of_slot_kept (h : exec i s = .next t) (hslot : t.slot = s.slot) : Repeats i t := by
  obtain ⟨hnext, -⟩ := exec_agrees hslot.symm (exec_cfg h).symm i
  obtain ⟨u, hu, hresp, huslot⟩ := hnext t h
  exact ⟨u, hu, huslot, hresp⟩

/-- Where the slot was written, the second execution passes the same checks (they read the operands, the build and NCH)
and loads the same container. -/
theorem repeats_of_isIdempotent (hi : isIdempotent i) (h : exec i s = .next t) : Repeats i t := by
  cases i with
  | contNewEmpty w h' =>
    rw [execContNewEmpty_next.1 h]
    exact ⟨_, execContNewEmpty_next.2 rfl, rfl, rfl⟩
  | contFromChunks w h' trip =>
    obtain ⟨hcap, ⟨-, rfl⟩ | ⟨harea, rfl⟩⟩ := execContFromChunks_next.1 h
    · exact repeats_of_slot_kept h rfl
    · exact ⟨_, execContFromChunks_next.2 ⟨hcap, .inr ⟨harea, rfl⟩⟩, rfl, rfl⟩
  | contReplaceAt idx pix =>
    obtain ⟨c, hc, ⟨-, rfl⟩ | ⟨hidx, rfl⟩⟩ := execContReplaceAt_next.1 h
    · exact repeats_of_slot_kept h rfl
    · refine ⟨_, execContReplaceAt_next.2 ⟨_, rfl, .inr ⟨?_, rfl⟩⟩, ?_, rfl⟩
      · rwa [List.length_set]
      · simp [List.set_set]
  | contDecode inp =>
    obtain ⟨hfits, ⟨-, rfl⟩ | ⟨h30, ⟨k, -, rfl⟩ | ⟨d, hd, hcap, ⟨k, -, rfl⟩ | ⟨es, hes, ⟨-, rfl⟩ | ⟨harea, rfl⟩⟩⟩⟩⟩ :=
      execContDecode_next.1 h
    · exact repeats_of_slot_kept h rfl
    · exact repeats_of_slot_kept h rfl
    · exact repeats_of_slot_kept h rfl
    · exact repeats_of_slot_kept h rfl
    · exact ⟨_, execContDecode_next.2 ⟨hfits, .inr ⟨h30, .inr ⟨d, hd, hcap, .inr ⟨es, hes, .inr ⟨harea, rfl⟩⟩⟩⟩⟩,
        rfl, rfl⟩
  | contAppend | contRemoveAt => exact absurd hi not_false
  | _ => exact repeats_of_slot_kept h (exec_slot_of_not_writesSlot h not_false)

/-- CONT_APPEND adds one to NCH; CONT_REMOVE_AT takes one away or raises NonExistentChunk. -/
theorem nch_changed_of_not_isIdempotent {r : Response} {c : Container} (hi : ¬ isIdempotent i) (h : exec i s = .next t)
    (hr : t.resp = some r) (hst : r.st = 0) (hc : s.slot = some c) :
    ∃ d, t.slot = some d ∧ d.chunks.length ≠ c.chunks.length := by
  cases i with
  | contAppend pix =>
    obtain ⟨c', hc', -, rfl⟩ := execContAppend_next.1 h
    cases hc.symm.trans hc'
    exact ⟨_, rfl, by simp⟩
  | contRemoveAt idx =>
    obtain ⟨c', hc', ⟨-, rfl⟩ | ⟨hidx, rfl⟩⟩ := execContRemoveAt_next.1 h
    · cases hr; exact absurd hst (code_ne_zero .nonExistentChunk)
    · cases hc.symm.trans hc'
      exact ⟨_, rfl, by simp only [List.length_eraseIdx_of_lt hidx]; omega⟩
  | _ => exact absurd trivial hi

end Repeats

/-- Settles O14: the three clauses are the frame of the commands that only answer, the repetition of the idempotent ones,
and the change of NCH by the other two. -/
theorem repeatingACommand : Obligations.RepeatingACommand := by
  unfold Obligations.RepeatingACommand
  exact ⟨fun i s t hi h => exec_slot_of_not_writesSlot h hi, fun i s t hi h => repeats_of_isIdempotent hi h,
    fun i s t r c hi h hr hst hc => nch_changed_of_not_isIdempotent hi h hr hst hc⟩

/-! ### The container stream (R51) -/

/-- A field that lies within the header record is not moved by what follows the record. -/
theorem hdrRec_append_field (w h : Word64) (rest : List Byte) {a n : Nat} (han : a + n ≤ 30) :
    ((hdrRec w h ++ rest).drop a).take n = ((hdrRec w h).drop a).take n := by
  have hlen := hdrRec_length w h
  rw [List.drop_append_of_le_length (by omega), List.take_append_of_le_length (by rw [List.length_drop]; omega)]

/-- Bytes 5k to 5k+4 of the payload are the record of chunk k (10_state.md R26). -/
theorem reencode_field (es : List Chunk) {k : Nat} (hk : k < es.length) :
    ((reencode es).drop (5 * k)).take 5 = es[k].record := by
  rw [← reencode_drop, List.drop_eq_getElem_cons hk, reencode_cons]
  exact List.take_left' (record_length _)

/-- Settles O42: the stream is the header record and then the payload; the header's fields are those of the record, since
the stored checksum is that of the dimensions, and the chunks' are those of the payload, since it is re-encoded. -/
theorem containerFrameMap : Obligations.ContainerFrameMap := by
  unfold Obligations.ContainerFrameMap
  intro s c hc hvalid
  obtain ⟨hmagic, hw, hh, hck, -⟩ := hdr_parts_take c.hdr.w c.hdr.h
  have hstored : c.hdr.ck = hdrCk c.hdr.w c.hdr.h := hvalid.header
  refine ⟨hdrRec c.hdr.w c.hdr.h ++ c.payload, completes_same (execContEncode_next.2 ⟨c, hc, rfl⟩), ?length, ?magic,
    ?width, ?height, ?checksum, ?chunks⟩
  case length => simp [hvalid.payload]
  case magic => exact (hdrRec_append_field _ _ _ (a := 0) (by norm_num)).trans hmagic
  case width => rw [hdrRec_append_field _ _ _ (by norm_num), hw]
  case height => rw [hdrRec_append_field _ _ _ (by norm_num), hh]
  case checksum =>
    rw [hdrRec_append_field _ _ _ (by norm_num), hck, hstored]
    exact List.take_of_length_le (by simp)
  case chunks =>
    intro k hk
    rw [← List.drop_drop, List.drop_left' (hdrRec_length _ _), hvalid.payload, reencode_field _ hk]
    rfl

end Sys2Proof.Machine

/-! ### Family 30_encoding.md: command words (R60, R63, R69 to R71), chunk words (R67), assembler lines (R76, R77) -/

namespace Sys2Proof.Machine

/-! ### Decode and encode -/

/-- The opcode map read backwards: the code is that of i's word, and the command holds i's operands where i reads them. -/
theorem decodeOpc_eq_some {o : BitVec 8} {c : Command} {i : Instr} :
    decodeOpc o c = some i ↔ o = opcOf (encode i).cw ∧ sameReadSlots i c (encode i) := by
  constructor
  case mp =>
    intro h
    unfold decodeOpc at h
    split at h
    case h_18 => cases h
    all_goals
      next ho =>
        cases h
        exact ⟨BitVec.eq_of_toNat_eq ho, by simp [sameReadSlots, encode]⟩
  case mpr =>
    rintro ⟨rfl, hslots⟩
    cases i <;> simp_all [decodeOpc, sameReadSlots, encode]

/-- A word is that of an instruction exactly when its reserved bits are zero and its opcode is the instruction's. -/
theorem eq_encode_cw {cw : Word32} {i : Instr} : cw = (encode i).cw ↔ rsvOf cw = 0 ∧ opcOf cw = opcOf (encode i).cw := by
  constructor
  case mp => rintro rfl; exact ⟨rsvOf_encode i, rfl⟩
  case mpr =>
    rintro ⟨hrsv, hopc⟩
    rw [eq_commandWord hrsv, hopc, ← eq_commandWord (rsvOf_encode i)]

/-- Settles O2: a successful decode is zero reserved bits and an entry of the opcode map; both are read backwards. -/
theorem decodesExactlyToItsEncoding : Obligations.DecodesExactlyToItsEncoding := by
  unfold Obligations.DecodesExactlyToItsEncoding
  intro c i
  rw [decode_eq_ok, decodeOpc_eq_some, eq_encode_cw, and_assoc]

theorem decode_encode (i : Instr) : decode (encode i) = .ok i :=
  decode_eq_ok.2 ⟨rsvOf_encode i, decodeOpc_encode i⟩

/-- Settles O1: each of the seventeen words has its reserved bits zero, and its opcode is a row of the map. -/
theorem eachCommandWordDecodes : Obligations.EachCommandWordDecodes := by
  unfold Obligations.EachCommandWordDecodes
  intros
  simp only [decode_eq_ok]
  and_intros <;> rfl

/-! ### Illegal words -/

theorem rsvOf_eq_ofNat (cw : Word32) : rsvOf cw = BitVec.ofNat 24 (cw.toNat / 256) := by
  have hfields := toNat_fields cw
  bv_omega

theorem opcOf_eq_ofNat (cw : Word32) : opcOf cw = BitVec.ofNat 8 cw.toNat := by
  have hfields := toNat_fields cw
  bv_omega

/-- The reserved bits are zero exactly in the words below 256. -/
theorem rsvOf_eq_zero {cw : Word32} : rsvOf cw = 0 ↔ cw.toNat < 256 := by
  have hfields := toNat_fields cw
  bv_omega

/-- A row of the table is an entry of the opcode map, with the slots R63 lists for it, named once each. -/
theorem asmTable_row (c : Command) : ∀ row ∈ asmTable,
    row.2.2.Nodup ∧ ∃ i, decodeOpc row.2.1 c = some i ∧ slotsRead i = row.2.2 := by
  intro row hrow
  refine ⟨?_, ?_⟩
  · revert row; decide
  · fin_cases hrow <;> exact ⟨_, rfl, rfl⟩

/-- The words of the table's rows are the seventeen of R69. -/
theorem asmTable_words : asmTable.map (fun row => commandWord row.2.1) =
    [0x01, 0x10, 0x20, 0x21, 0x22, 0x30, 0x31, 0x32, 0x40, 0x41, 0x42, 0x43, 0x44, 0x45, 0x46, 0x47, 0x48] := rfl

/-- Settles O3: the legal words are those of the encodings; of the others, R71 tests the reserved bits first. -/
theorem illegalWordsAreAllTheOthers : Obligations.IllegalWordsAreAllTheOthers := by
  unfold Obligations.IllegalWordsAreAllTheOthers
  intro c
  refine ⟨⟨?legal, ?listed⟩, ?reserved, ?unassigned⟩
  case legal =>
    rintro ⟨i, hd⟩
    obtain ⟨hword, -⟩ := (decodesExactlyToItsEncoding c i).1 hd
    rw [← asmTable_words, hword, eq_commandWord (rsvOf_encode i)]
    exact List.mem_map.2 ⟨_, List.mem_of_find?_eq_some (asmTable_mnemonic i), rfl⟩
  case listed =>
    intro hcw
    rw [← asmTable_words, List.mem_map] at hcw
    obtain ⟨row, hrow, hword⟩ := hcw
    obtain ⟨-, i, hopc, -⟩ := asmTable_row c row hrow
    exact ⟨i, decode_of_word hword.symm hopc⟩
  case reserved =>
    intro hcw
    have hrsv : rsvOf c.cw ≠ 0 := mt rsvOf_eq_zero.1 (not_lt.2 hcw)
    rw [decode, if_pos hrsv, rsvOf_eq_ofNat]
  case unassigned =>
    intro hcw hill
    have hrsv := rsvOf_eq_zero.2 hcw
    have hopc : decodeOpc (opcOf c.cw) c = none :=
      Option.eq_none_iff_forall_ne_some.2 fun i hi => hill i (decode_eq_ok.2 ⟨hrsv, hi⟩)
    rw [decode, if_neg (not_not.2 hrsv), hopc, opcOf_eq_ofNat]

/-- Settles O5: the law of the step on a legal command word. -/
theorem stepRunsTheDecodedCommand : Obligations.StepRunsTheDecodedCommand := by
  unfold Obligations.StepRunsTheDecodedCommand
  exact fun s c rest i => step_legal

/-! ### Chunk words (R67) -/

/-- The four fields of a chunk word do not overlap, and fit in 40 bits. -/
theorem cword_toNat (r g b : Byte) (c : Word16) :
    (cword r g b c).toNat = r.toNat * 2 ^ 32 + g.toNat * 2 ^ 24 + b.toNat * 2 ^ 16 + c.toNat := by
  rw [cword, BitVec.toNat_ofNat, Nat.mod_eq_of_lt (by omega)]

/-- A chunk's record read as one number. -/
theorem fromBE_chunkRec (r g b : Byte) : fromBE (chunkRec r g b) =
    r.toNat * 2 ^ 32 + g.toNat * 2 ^ 24 + b.toNat * 2 ^ 16 + (ck [r, g, b]).toNat := by
  have hck : fromBE (be 2 (ck [r, g, b]).toNat) = (ck [r, g, b]).toNat := fromBE_be 2 _ (ck [r, g, b]).isLt
  simp [chunkRec, tripBytes, fromBE_cons, hck, add_assoc]

/-- Bits k + n − 1 down to k of a chunk word, as arithmetic on its value. -/
theorem cword_field (r g b : Byte) (c : Word16) (k n : Nat) : ((cword r g b c).extractLsb' k n).toNat =
    (r.toNat * 2 ^ 32 + g.toNat * 2 ^ 24 + b.toNat * 2 ^ 16 + c.toNat) / 2 ^ k % 2 ^ n := by
  rw [BitVec.extractLsb'_toNat, cword_toNat, Nat.shiftRight_eq_div_pow]

/-- Settles O16: a field is cut out of the sum of the four shifted operands by division; the record is the same sum. -/
theorem chunkWordIsTheRecord : Obligations.ChunkWordIsTheRecord := by
  unfold Obligations.ChunkWordIsTheRecord
  intro r g b c
  refine ⟨cword_toNat r g b c, ?red, ?green, ?blue, ?checksum, ?top,
    (cword_toNat r g b _).trans (fromBE_chunkRec r g b).symm⟩
  all_goals refine BitVec.eq_of_toNat_eq ((cword_field r g b c _ _).trans ?_)
  case top => rw [show (0 : BitVec 24).toNat = 0 from rfl]; omega
  all_goals omega

/-! ### Assembler lines (R76, R77) -/

/-- The tokens of a line are its mnemonic and those of its slots. -/
theorem lineText_tokens {m sp tail : List Char} {slots : List (SlotName × List Char)} {toks : List Tok} (hm : WordText m)
    (htail : CommentOrEnd tail) (h : tokens (slotsText sp slots ++ tail) [] = some toks) :
    tokens (lineText m sp slots ++ tail) [] = some (.word m :: toks) := by
  obtain ⟨hne, hword⟩ := hm
  cases slots with
  | nil =>
    rw [show lineText m sp [] ++ tail = m ++ (slotsText sp [] ++ tail) by simp [lineText, slotsText],
      tokens_word_end hword hne (by simpa [slotsText] using (tokens_tail htail).2), h]
    rfl
  | cons p slots =>
    have hblank := tokens_blank (sp := [' ']) (by simp [Blank]) (slotsText sp (p :: slots) ++ tail)
    rw [show lineText m sp (p :: slots) ++ tail = m ++ ' ' :: (slotsText sp (p :: slots) ++ tail) by simp [lineText],
      tokens_word_end hword hne (endsWord_cons (by decide) _), ← List.singleton_append, hblank, h]
    rfl

/-- Copying the slots that i reads from its encoding into a command with i's word gives the encoding. -/
theorem copySlots_encode {i : Instr} {ns : List SlotName} (h : ns.Perm (slotsRead i)) :
    ns.foldl (copySlot (encode i)) { cw := (encode i).cw } = encode i := by
  rw [foldl_copySlot]
  simp only [h.mem_iff]
  cases i <;> simp [slotsRead, encode]

/-- What a line that assembles says: a row of the table, and texts for exactly the slots the row lists. -/
theorem assemble_eq_some {line : List Char} {c : Command} (h : assemble line = some c) :
    ∃ m opc want given, (m, opc, want) ∈ asmTable ∧ slotsMatch want given = true ∧
      fillSlots { cw := commandWord opc } given = some c := by
  unfold assemble at h
  split at h
  next m toks _ =>
    split at h
    next m' opc want given hrow _ =>
      split at h
      next hmatch => exact ⟨m', opc, want, given, List.mem_of_find?_eq_some hrow, hmatch, h⟩
      next => cases h
    next => cases h
  next => cases h

/-- A command with i's word and operands is i's encoding when every slot i does not read has its default. -/
theorem eq_encode_of_unread {c : Command} {i : Instr} (hcw : c.cw = (encode i).cw) (hread : sameReadSlots i c (encode i))
    (hunread : ∀ n, n ∉ slotsRead i → SameSlot n { cw := c.cw } c) : encode i = c := by
  obtain ⟨cw, w, h, idx, pix, inp, trip⟩ := c
  have hw := hunread .w; have hh := hunread .h; have hidx := hunread .idx
  have hpix := hunread .pix; have hinp := hunread .inp; have htrip := hunread .trip
  cases i <;> simp_all [slotsRead, SameSlot, sameReadSlots, encode]

/-- Settles O53: a well-written line is read token by token into the slots of its instruction; and a line that assembles
names a row of the opcode map and exactly the slots that row reads, so its command is an encoding. -/
theorem assembledLinesAreCommands : Obligations.AssembledLinesAreCommands := by
  unfold Obligations.AssembledLinesAreCommands
  refine ⟨?written, ?assembled⟩
  case written =>
    intro i slots sp tail hperm hslots hsp htail
    obtain ⟨ps, hnames, htoks, hfill⟩ := slots_written hsp htail hslots
    have hline := lineText_tokens (mnemonic_word i) htail htoks
    have hmatch : slotsMatch (slotsRead i) ps = true := slotsMatch_perm (hnames ▸ hperm)
    have hcw := (eq_commandWord (rsvOf_encode i)).symm
    simp only [assemble, hline, asmTable_mnemonic, lineSlots_toks, hmatch, if_true, hcw, hfill, copySlots_encode hperm]
  case assembled =>
    intro line c h
    obtain ⟨m, opc, want, given, hrow, hmatch, hfill⟩ := assemble_eq_some h
    obtain ⟨hnodup, i, hopc, hwant⟩ := asmTable_row c _ hrow
    obtain ⟨hcw, hkept⟩ := fillSlots_spec hfill
    have hunread : ∀ n, n ∉ slotsRead i → SameSlot n { cw := c.cw } c := fun n hn =>
      hcw ▸ hkept n fun hmem => hn (hwant ▸ slotsMatch_sub hmatch hnodup n hmem)
    obtain ⟨hword, hread⟩ := (decodesExactlyToItsEncoding c i).1 (decode_of_word hcw hopc)
    have henc : encode i = c := eq_encode_of_unread hword hread hunread
    exact ⟨i, henc ▸ decode_encode i, henc⟩

end Sys2Proof.Machine

/-! ### Family 40_checksum.md: the Checksum-16 generator (R90, R91), what it detects (R94), CHECKSUM (R92) -/

namespace Sys2Proof.Machine

/-! ### The registers, one byte at a time (R90, R91) -/

theorem ckRun_concat (e : CkEngine) (s : List Byte) (b : Byte) : ckRun e (s ++ [b]) = ckStep (ckRun e s) b :=
  ckRun_append e s [b]

/-- The registers after byte i come from those before it by one step. -/
theorem ckRun_take_succ (e : CkEngine) {s : List Byte} {i : Nat} {b : Byte} (hb : s[i]? = some b) :
    ckRun e (s.take (i + 1)) = ckStep (ckRun e (s.take i)) b := by
  rw [List.take_add_one, hb, Option.toList_some, ckRun_concat]

theorem ckStep_prev (e : CkEngine) (b : Byte) :
    (ckStep e b).prev = (b ^^^ e.prev) - (ckStep e b).acc.extractLsb' 8 8 := rfl

/-- PREV after one more byte, in natural numbers: ACC is below 65536, so its high byte is its quotient by 256. -/
theorem ckStep_prev_toNat (e : CkEngine) (b : Byte) :
    (ckStep e b).prev.toNat = ((b ^^^ e.prev).toNat + 256 - (ckStep e b).acc.toNat / 256) % 256 := by
  have hacc := (ckStep e b).acc.isLt
  have hhigh : ((ckStep e b).acc.extractLsb' 8 8).toNat = (ckStep e b).acc.toNat / 256 := by
    rw [BitVec.extractLsb'_toNat, Nat.shiftRight_eq_div_pow]
    omega
  rw [ckStep_prev, BitVec.toNat_sub, hhigh]
  omega

/-- Settles O17: the registers before byte i are those of the run over the first i bytes. -/
theorem checksumByExactModularArithmetic : Obligations.ChecksumByExactModularArithmetic := by
  unfold Obligations.ChecksumByExactModularArithmetic
  intro s
  refine ⟨fun i => ckRun ckSeed (s.take i), rfl, rfl, ?step, ?last⟩
  case step =>
    intro i b hb
    simp only [ckRun_take_succ ckSeed hb]
    exact ⟨ckStep_acc_toNat _ b, ckStep_prev_toNat _ b⟩
  case last => simp only [List.take_length, ck]

/-! ### What the checksum detects, and its bound (R94) -/

/-- What the last byte adds to the accumulator is one to one in that byte: 16 bits hold the exclusive or with PREV. -/
theorem ck_concat_inj (s : List Byte) {a b : Byte} (h : ck (s ++ [a]) = ck (s ++ [b])) : a = b := by
  rw [ck_concat, ck_concat, BitVec.add_right_inj] at h
  have hnarrowed := congrArg (BitVec.setWidth 8) h
  simpa using hnarrowed

/-- Settles O18: two checksums that agree have the same last byte. -/
theorem lastByteChangeIsDetected : Obligations.LastByteChangeIsDetected := by
  unfold Obligations.LastByteChangeIsDetected
  exact fun s a b hab => mt (ck_concat_inj s) hab

/-- A byte adds at most 255 to the accumulator. -/
theorem ckRun_acc_le (e : CkEngine) (s : List Byte) : (ckRun e s).acc.toNat ≤ e.acc.toNat + 255 * s.length := by
  induction s generalizing e with
  | nil => rfl
  | cons b s ih =>
    have hrest := ih (ckStep e b)
    have hstep := ckStep_acc_le e b
    rw [ckRun_cons, List.length_cons]
    omega

/-- R94 (d) for every length: the accumulator starts at 0. -/
theorem ck_le (s : List Byte) : (ck s).toNat ≤ 255 * s.length := by
  simpa [ck, ckSeed] using ckRun_acc_le ckSeed s

/-- Settles O19: three bytes give at most 3 · 255 = 0x02FD. -/
theorem chunkChecksumBound : Obligations.ChunkChecksumBound := by
  unfold Obligations.ChunkChecksumBound
  exact fun r g b => ck_le [r, g, b]

/-- The record of a header decodes as that header (42_header.md R125 (a)). -/
theorem hdrDec_hdrRec (w h : Word64) : hdrDec (hdrRec w h) = .ok (mkHeader w h) := by
  have hfield : fromBE (be 4 (hdrCk w h).toNat) = (hdrCk w h).toNat := fromBE_be 4 _ (hdrCk w h).isLt
  have hck : (ck (be 8 w.toNat ++ be 8 h.toNat)).toNat = (hdrCk w h).toNat :=
    (BitVec.toNat_setWidth_of_le (by decide)).symm
  have hw : fromBE (be 8 w.toNat) = w.toNat := fromBE_be 8 _ w.isLt
  have hh : fromBE (be 8 h.toNat) = h.toNat := fromBE_be 8 _ h.isLt
  rw [hdrRec, hdrDec_parts magic_length (be_length 8 _) (be_length 8 _) (be_length 4 _), hfield, hck, hw, hh]
  simp [mkHeader]

/-- The two headers of 42_header.md R125 (c) have one checksum, so byte 24 is all their records differ in. -/
theorem hdrRec_20_20_set_24 : (hdrRec 20 20).set 24 0x04 = hdrRec 20 1044 := by decide

theorem mkHeader_20_1044 : mkHeader 20 1044 = { w := 20, h := 1044, ck := 2161 } := by decide

/-- Settles O20: the triplets' checksums are computed; the changed header record is the record of (20,1044). -/
theorem earlierByteChangeCanGoUndetected : Obligations.EarlierByteChangeCanGoUndetected := by
  unfold Obligations.EarlierByteChangeCanGoUndetected
  refine ⟨by decide, by decide, by decide, by decide, ?_⟩
  rw [hdrRec_20_20_set_24, hdrDec_hdrRec, mkHeader_20_1044]

/-! ### CHECKSUM (R92) -/

/-- The registers before the byte that wraps the accumulator. -/
theorem ckRun_replicate_410 : ckRun ckSeed (List.replicate 410 0xFF) = { acc := 65500, prev := 41 } := by decide +kernel

theorem ck_replicate_410 : ck (List.replicate 410 0xFF) = 65500 := by rw [ck, ckRun_replicate_410]

/-- The 16-bit wrap: 65500 + (0xFF XOR 41) = 65536 + 178. -/
theorem ck_replicate_411 : ck (List.replicate 411 0xFF) = 178 := by
  rw [List.replicate_succ', ck_concat, ck_replicate_410, ckRun_replicate_410]
  decide

/-- Settles O21: the input guard decides between the answer and the fault; the corner cases are evaluated. -/
theorem checksumCommand : Obligations.ChecksumCommand := by
  unfold Obligations.ChecksumCommand
  refine ⟨fun _ => rfl, ?completes, ?overflow, ck_nil, by decide, ck_replicate_410, ck_replicate_411, by decide⟩
  case completes => exact fun inp s hfits => completes_same (execChecksum_next.2 ⟨hfits, rfl⟩)
  case overflow => exact fun inp s hlong => withInput_overflow hlong _

end Sys2Proof.Machine

/-! ### Family 41_pixel_chunk.md: pixels (R101), chunks (R102 to R105) and the chunk round trip (R106) -/

namespace Sys2Proof.Machine

/-! ### The bytes of triplets and records -/

/-- A triplet's three bytes are its big-endian encoding (R101). -/
theorem be_three_pix (pix : Word24) : be 3 pix.toNat = [pixR pix, pixG pix, pixB pix] := by
  have hbyte (k : Nat) : BitVec.ofNat 8 (pix.toNat / 2 ^ k) = pix.extractLsb' k 8 := by
    rw [← Nat.shiftRight_eq_div_pow]; rfl
  simp only [be, pow256, hbyte]
  rfl

/-- A chunk's record, byte by byte (R103). -/
theorem chunkRec_bytes (r g b : Byte) : chunkRec r g b =
    [r, g, b, (ck [r, g, b]).extractLsb' 8 8, (ck [r, g, b]).extractLsb' 0 8] :=
  congrArg ([r, g, b] ++ ·) (be_two _)

/-- The high byte of a chunk checksum: the checksum is at most 765 (R94 (d)). -/
theorem chunk_ck_high (r g b : Byte) : (ck [r, g, b]).extractLsb' 8 8 ∈ ([0x00, 0x01, 0x02] : List Byte) := by
  have hle : (ck [r, g, b]).toNat ≤ 765 := chunkChecksumBound r g b
  have hhigh : ((ck [r, g, b]).extractLsb' 8 8).toNat = (ck [r, g, b]).toNat / 256 % 256 := by
    rw [BitVec.extractLsb'_toNat, Nat.shiftRight_eq_div_pow]
  simp only [List.mem_cons, List.not_mem_nil, or_false]
  bv_omega

/-! ### The chunk record decoder (R105, R106) -/

/-- The decoder on five bytes: the last two, high byte first, against the checksum of the first three. -/
theorem chunkDec_five_bytes (r g b hi lo : Byte) : chunkDec [r, g, b, hi, lo] =
    if ck [r, g, b] = hi ++ lo then .ok (entry r g b) else .error .checksumMismatch := by
  rw [chunkDec_five, fromBE_two]

/-- The record of a triplet decodes as its entry (R106 (a)). -/
theorem chunkDec_chunkRec (r g b : Byte) : chunkDec (chunkRec r g b) = .ok (entry r g b) := by
  rw [chunkRec_bytes, chunkDec_five, ← be_two, ofNat_fromBE_be_two, if_pos rfl]

/-- A record that decodes is the record of the triplet it decodes to (R106 (b)). -/
theorem chunkRec_of_chunkDec_ok {s : List Byte} {e : Chunk} (h : chunkDec s = .ok e) : chunkRec e.r e.g e.b = s := by
  obtain ⟨hvalid, hrec⟩ := chunkDec_ok h
  rw [← record_of_valid hvalid, hrec]

/-- Settles O26: encode then decode is the entry, decode then encode is the record; so a five-byte record that is no
triplet's does not decode, and its length leaves only the checksum to fail. -/
theorem chunkRecordRoundTrip : Obligations.ChunkRecordRoundTrip := by
  unfold Obligations.ChunkRecordRoundTrip
  refine ⟨chunkDec_chunkRec, fun _ _ => chunkRec_of_chunkDec_ok, ?injective, ?mismatch⟩
  case injective =>
    intro r g b r' g' b' h
    simp only [chunkRec_bytes, List.cons.injEq] at h
    obtain ⟨hr, hg, hb, -⟩ := h
    exact ⟨hr, hg, hb⟩
  case mismatch =>
    intro s hlen hs
    cases hd : chunkDec s with
    | ok e => exact absurd (chunkRec_of_chunkDec_ok hd).symm (hs e.r e.g e.b)
    | error k =>
      obtain ⟨hne, -⟩ | ⟨-, rfl⟩ := chunkDec_err hd
      · exact absurd hlen hne
      · rfl

/-! ### The commands (R101 to R104) -/

/-- Settles O22: the command answers the triplet's bytes and keeps the slot. -/
theorem pixelEncodeCommand : Obligations.PixelEncodeCommand := by
  unfold Obligations.PixelEncodeCommand
  exact fun pix s => ⟨rfl, completes_same (execPixelEncode_next.2 rfl), be_three_pix pix⟩

/-- Settles O23: the command answers the entry of the triplet; three bytes give a checksum of at most 765. -/
theorem chunkNewCommand : Obligations.ChunkNewCommand := by
  unfold Obligations.ChunkNewCommand
  rintro pix r g b s rfl rfl rfl
  exact ⟨rfl, completes_same (execChunkNew_next.2 rfl), Nat.lt_of_le_of_lt (chunkChecksumBound _ _ _) (by decide)⟩

/-- Settles O24: the command answers the triplet's record, whose bytes are `chunkRec_bytes`; a valid entry's record is its
triplet's by the chunk invariant. -/
theorem chunkEncodeCommand : Obligations.ChunkEncodeCommand := by
  unfold Obligations.ChunkEncodeCommand
  refine ⟨?command, fun e he => record_of_valid he⟩
  rintro pix r g b s rfl rfl rfl
  refine ⟨rfl, ?_, chunk_ck_high _ _ _⟩
  rw [← chunkRec_bytes]
  exact completes_same (execChunkEncode_next.2 rfl)

section ChunkDecode
variable {inp : List Byte} {s : State}

/-- CHUNK_DECODE answers the error of the record decoder. -/
theorem chunkDecode_completes_err {k : ErrKind} (hfits : inputFits s.cfg inp = true) (hd : chunkDec inp = .error k) :
    Completes (.chunkDecode inp) s s.slot { st := k.code } := by
  rw [← errResponse_eq (chunkDec_err_ne hd) s.draws]
  exact completes_same (execChunkDecode_next.2 ⟨hfits, .inl ⟨k, hd, rfl⟩⟩)

/-- CHUNK_DECODE answers the entry that the record decoder gives. -/
theorem chunkDecode_completes_ok {e : Chunk} (hfits : inputFits s.cfg inp = true) (hd : chunkDec inp = .ok e) :
    Completes (.chunkDecode inp) s s.slot { r0 := e.word, r1 := e.ck.setWidth 64 } :=
  completes_same (execChunkDecode_next.2 ⟨hfits, .inr ⟨e, hd, rfl⟩⟩)

end ChunkDecode

/-- Settles O25: behind the input guard the command answers what the record decoder gives: by the length, and on five
bytes by the comparison with the checksum. -/
theorem chunkDecodeCommand : Obligations.ChunkDecodeCommand := by
  unfold Obligations.ChunkDecodeCommand
  refine ⟨fun _ => rfl, ?overflow, ?length, ?mismatch, ?decoded⟩
  case overflow => exact fun inp s hlong => withInput_overflow hlong _
  case length => exact fun inp s hfits hlen => chunkDecode_completes_err hfits (chunkDec_length hlen)
  case mismatch =>
    intro r g b hi lo s hfits hck
    exact chunkDecode_completes_err hfits (by rw [chunkDec_five_bytes, if_neg hck])
  case decoded =>
    intro r g b hi lo s hfits hck
    rw [← hck]
    exact chunkDecode_completes_ok (e := entry r g b) hfits (by rw [chunkDec_five_bytes, if_pos hck])

end Sys2Proof.Machine

/-! ### Family 42_header.md: HEADER_NEW (R120), HEADER_ENCODE (R121), HEADER_DECODE (R122 to R124), the header round trip
(R125) -/

namespace Sys2Proof.Machine

/-! ### The header checksum on numbers and on the raw bytes (R120, R122) -/

/-- The header checksum is the 16-bit checksum, zero-extended. -/
theorem hdrCk_toNat (w h : Word64) : (hdrCk w h).toNat = (ck (be 8 w.toNat ++ be 8 h.toNat)).toNat :=
  BitVec.toNat_setWidth_of_le (by decide)

/-- Encoding the dimension read from eight bytes gives the bytes back. -/
theorem be_ofNat_fromBE {s : List Byte} (hs : s.length = 8) : be 8 (BitVec.ofNat 64 (fromBE s)).toNat = s := by
  rw [BitVec.toNat_ofNat, show (2 : Nat) ^ 64 = 256 ^ 8 by norm_num, be_mod, be_fromBE_of_length hs]

/-- The checksum of sixteen raw bytes is the header checksum of the dimensions read from them. -/
theorem hdrCk_fromBE {wb hb : List Byte} (hw : wb.length = 8) (hh : hb.length = 8) :
    hdrCk (BitVec.ofNat 64 (fromBE wb)) (BitVec.ofNat 64 (fromBE hb)) = (ck (wb ++ hb)).setWidth 32 := by
  rw [hdrCk, be_ofNat_fromBE hw, be_ofNat_fromBE hh]

/-! ### Accepted records (R122, R125) -/

/-- The last four bytes of an accepted record are the checksum of its sixteen dimension bytes. -/
theorem hdrDec_ok_stored {s : List Byte} {d : Header} (hd : hdrDec s = .ok d) :
    fromBE (s.drop 26) = (ck ((s.drop 10).take 16)).toNat := by
  obtain ⟨-, hstored, -⟩ := headerChecksumMixedWidth
  obtain ⟨hfield, hck⟩ := hstored s d hd
  rw [← hfield, hck, BitVec.toNat_setWidth_of_le (by decide)]

/-- Byte 25 is the last of the dimension bytes. -/
theorem dims_set_25 {s : List Byte} (hl : s.length = 30) (x : Byte) :
    ((s.set 25 x).drop 10).take 16 = (s.drop 10).take 15 ++ [x] := by
  rw [List.drop_set, if_neg (by decide), List.take_add_one, List.take_set_of_le (by decide),
    List.getElem?_set_self (by simp [hl])]
  rfl

/-- A change of byte 25 keeps the stored checksum and changes the last byte under the computed one, which detects it
(40_checksum.md R94 (b)): two values of byte 25 are never both accepted. -/
theorem hdrDec_ok_set_25_inj {s : List Byte} {d d' : Header} {x y : Byte} (hl : s.length = 30)
    (hx : hdrDec (s.set 25 x) = .ok d) (hy : hdrDec (s.set 25 y) = .ok d') : x = y := by
  have hstored : (s.set 25 x).drop 26 = (s.set 25 y).drop 26 := by simp [List.drop_set]
  have hck : ck ((s.drop 10).take 15 ++ [x]) = ck ((s.drop 10).take 15 ++ [y]) := by
    apply BitVec.eq_of_toNat_eq
    rw [← dims_set_25 hl, ← dims_set_25 hl, ← hdrDec_ok_stored hx, ← hdrDec_ok_stored hy, hstored]
  exact ck_concat_inj _ hck

/-- Settles O30: encode then decode is the header, decode then encode is the record; a changed byte 25 leaves the magic
right and is not accepted beside the byte it replaces; the record with byte 24 changed is that of (20,1044). -/
theorem headerRecordRoundTrip : Obligations.HeaderRecordRoundTrip := by
  unfold Obligations.HeaderRecordRoundTrip
  refine ⟨hdrDec_hdrRec, fun s d hd => ⟨(hdrDec_ok_eq_hdrRec hd).symm, hdrDec_ok_valid hd⟩, ?byte25, ?byte24⟩
  case byte25 =>
    intro w h x hx
    have hlen := hdrRec_length w h
    have hmagic : ((hdrRec w h).set 25 x).take 10 = magic := by
      obtain ⟨hmagic, -⟩ := hdr_parts_take w h
      rw [List.take_set_of_le (by decide), hmagic]
    obtain hbad | ⟨d, hd⟩ := hdrDec_of_magic (by rw [List.length_set, hlen]) hmagic
    · exact hbad
    · have hold : hdrDec ((hdrRec w h).set 25 (hdrRec w h)[25]) = .ok (mkHeader w h) := by
        rw [List.set_getElem_self, hdrDec_hdrRec]
      rw [hdrDec_ok_set_25_inj hlen hd hold, List.getElem?_eq_getElem (by rw [hlen]; decide)] at hx
      exact absurd rfl hx
  case byte24 => rw [hdrRec_20_20_set_24, hdrDec_hdrRec, mkHeader_20_1044]

/-- Settles O32: the decoder's groups have eight bytes each, so its only errors are those of `hdrDec_err`. -/
theorem byteConversionNeverFails : Obligations.ByteConversionNeverFails := by
  unfold Obligations.ByteConversionNeverFails
  exact fun s hd => hdrDec_err_ne hd rfl

/-! ### The commands (R120, R121, R123) -/

/-- Settles O27: the command answers the dimensions and their checksum, which has 16 bits; the collisions are evaluated. -/
theorem headerNewCommand : Obligations.HeaderNewCommand := by
  unfold Obligations.HeaderNewCommand
  refine ⟨fun w h s => ⟨rfl, completes_same (execHeaderNew_next.2 rfl), hdrCk_toNat w h, ?_⟩, by decide, by decide,
    by decide, by decide⟩
  rw [hdrCk_toNat]
  exact Nat.le_of_lt_succ (BitVec.isLt _)

/-- Settles O28: the command answers the header record; its fields are those of `hdr_parts_take`, and its checksum field is
that of a record the decoder accepts. -/
theorem headerEncodeCommand : Obligations.HeaderEncodeCommand := by
  unfold Obligations.HeaderEncodeCommand
  intro w h s
  obtain ⟨hmagic, hw, hh, -⟩ := hdr_parts_take w h
  have hfield := List.ext_getElem?_iff.1 (hdrRec_drop_26 w h)
  refine ⟨hdrRec w h, rfl, completes_same (execHeaderEncode_next.2 rfl), hdrRec_length w h, hmagic, ?width, ?height,
    hdrDec_ok_stored (hdrDec_hdrRec w h), ?byte26, ?byte27⟩
  case width => rw [hw, fromBE_be 8 _ w.isLt]
  case height => rw [hh, fromBE_be 8 _ h.isLt]
  case byte26 => simpa using hfield 0
  case byte27 => simpa using hfield 1

section HeaderDecode
variable {inp : List Byte} {s : State}

/-- HEADER_DECODE answers the error of the record decoder. -/
theorem headerDecode_completes_err {k : ErrKind} (hfits : inputFits s.cfg inp = true) (hd : hdrDec inp = .error k) :
    Completes (.headerDecode inp) s s.slot { st := k.code } := by
  rw [← errResponse_eq (hdrDec_err_ne hd) s.draws]
  exact completes_same (execHeaderDecode_next.2 ⟨hfits, .inl ⟨k, hd, rfl⟩⟩)

/-- HEADER_DECODE answers the header that the record decoder gives. -/
theorem headerDecode_completes_ok {d : Header} (hfits : inputFits s.cfg inp = true) (hd : hdrDec inp = .ok d) :
    Completes (.headerDecode inp) s s.slot { r0 := d.w, r1 := d.h, r2 := d.ck.setWidth 64 } :=
  completes_same (execHeaderDecode_next.2 ⟨hfits, .inr ⟨d, hd, rfl⟩⟩)

end HeaderDecode

/-- The four stored checksum bytes fit 32 bits, so widening their value to a response field loses nothing. -/
theorem stored_setWidth {cb : List Byte} (hc : cb.length = 4) :
    (BitVec.ofNat 32 (fromBE cb)).setWidth 64 = BitVec.ofNat 64 (fromBE cb) :=
  BitVec.setWidth_ofNat_of_le_of_lt (by decide) (by simpa [hc] using fromBE_lt cb)

/-- Settles O29: behind the input guard the command answers what the record decoder gives: by the length, and on the four
fields of a record by the magic and then the checksum. -/
theorem headerDecodeCommand : Obligations.HeaderDecodeCommand := by
  unfold Obligations.HeaderDecodeCommand
  refine ⟨fun _ => rfl, ?overflow, ?length, ?fields⟩
  case overflow => exact fun inp s hlong => withInput_overflow hlong _
  case length => exact fun inp s hfits hlen => headerDecode_completes_err hfits (hdrDec_length hlen)
  case fields =>
    intro m wb hb cb s hfits hm hw hh hc
    have hdec := hdrDec_parts hm hw hh hc
    refine ⟨(hdrCk_fromBE hw hh).symm, ?magic, ?mismatch, ?decoded⟩
    case magic =>
      intro hbad
      exact headerDecode_completes_err hfits (hdec.trans (if_pos hbad))
    case mismatch =>
      intro hmagic hck
      exact headerDecode_completes_err hfits (hdec.trans ((if_neg (not_not.2 hmagic)).trans (if_pos hck)))
    case decoded =>
      intro hmagic hck
      rw [← stored_setWidth hc]
      exact headerDecode_completes_ok hfits
        (hdec.trans ((if_neg (not_not.2 hmagic)).trans (if_neg (not_not.2 hck))))

end Sys2Proof.Machine

/-! ### Family 43_container.md: the record split (R151), CONT_DECODE (R152, R153) and its round trips with CONT_ENCODE
(R154, R155), the dimension check (R149), the staging state (R142), the other container commands (R141 to R150) -/

namespace Sys2Proof.Machine

/-! ### The record split (R151) -/

theorem split5_length (s : List Byte) : (split5 s).length = (s.length + 4) / 5 := by
  induction s using split5_induction with
  | nil => rfl
  | short s h0 h5 =>
    have hpos := List.length_pos_iff.2 h0
    rw [split5_short h0 h5, List.length_singleton]
    omega
  | full r rest hr ih =>
    rw [split5_cons hr, List.length_cons, ih, List.length_append]
    omega

/-- Skipping records is skipping their bytes in fives. -/
theorem split5_drop (s : List Byte) (n : Nat) : (split5 s).drop n = split5 (s.drop (5 * n)) := by
  induction s using split5_induction generalizing n with
  | nil => simp [split5]
  | short s h0 h5 =>
    cases n with
    | zero => rfl
    | succ n => rw [split5_short h0 h5, List.drop_of_length_le (l := s) (by omega)]; simp [split5]
  | full r rest hr ih =>
    cases n with
    | zero => rfl
    | succ n =>
      rw [split5_cons hr, List.drop_succ_cons, ih, Nat.mul_succ, Nat.add_comm, ← List.drop_drop, List.drop_left' hr]

/-- The first record is the first five bytes, or all there are. -/
theorem split5_head? {s : List Byte} (h : s ≠ []) : (split5 s).head? = some (s.take 5) := by
  induction s using split5_induction with
  | nil => exact absurd rfl h
  | short s h0 h5 => rw [split5_short h0 h5, List.take_of_length_le h5.le]; rfl
  | full r rest hr _ => rw [split5_cons hr, List.take_left' hr]; rfl

/-- Record j begins at byte 5j. -/
theorem split5_getElem? {s : List Byte} {j : Nat} (hj : j < (s.length + 4) / 5) :
    (split5 s)[j]? = some ((s.drop (5 * j)).take 5) := by
  have hne : s.drop (5 * j) ≠ [] := mt List.drop_eq_nil_iff.1 (by omega)
  rw [← List.head?_drop, split5_drop, split5_head? hne]

/-- Settles O43: count, records and skipped groups by the laws of the split; a slice stops where the bytes do. -/
theorem recordSplit : Obligations.RecordSplit := by
  unfold Obligations.RecordSplit
  refine ⟨fun rest => ⟨split5_length rest, fun j hj => ?record⟩, ?groups⟩
  case record =>
    have hmin : (rest.drop (5 * j)).take 5 = (rest.drop (5 * j)).take (min 5 (rest.length - 5 * j)) := by
      rw [List.take_eq_take_iff, List.length_drop]
      omega
    rw [split5_getElem? hj, hmin]
  case groups =>
    intro head rest hhead
    rw [split5_drop, List.drop_left' hhead]

/-! ### Valid entries and their records (R106) -/

/-- Entries that satisfy the chunk invariant are the entries of their triplets. -/
theorem exists_triplets_of_valid {es : List Chunk} (h : ∀ e ∈ es, e.valid) :
    ∃ px : List (Byte × Byte × Byte), es = px.map fun p => entry p.1 p.2.1 p.2.2 := by
  refine ⟨es.map fun e => (e.r, e.g, e.b), ?_⟩
  rw [List.map_map]
  exact (List.map_id es).symm.trans (List.map_congr_left fun e he => entry_of_valid (h e he))

/-- The payload of the entries of triplets is the triplets' records. -/
theorem reencode_map_entry (px : List (Byte × Byte × Byte)) :
    reencode (px.map fun p => entry p.1 p.2.1 p.2.2) = px.flatMap fun p => chunkRec p.1 p.2.1 p.2.2 := by
  simp only [reencode, List.flatMap_map, entry_record]

/-- The record of a valid entry decodes as the entry. -/
theorem chunkDec_record {e : Chunk} (h : e.valid) : chunkDec e.record = .ok e := by
  rw [record_of_valid h, chunkDec_chunkRec, ← entry_of_valid h]

/-- The payload of valid entries decodes as the entries. -/
theorem decodeRecs_split5_reencode {es : List Chunk} (h : ∀ e ∈ es, e.valid) :
    decodeRecs (split5 (reencode es)) = .ok es := by
  rw [split5_reencode]
  induction es with
  | nil => rfl
  | cons e es ih =>
    obtain ⟨he, hes⟩ := List.forall_mem_cons.1 h
    rw [List.map_cons, decodeRecs_cons, chunkDec_record he, ih hes]

theorem Header.eq_mkHeader_of_valid {d : Header} (h : d.valid) : d = mkHeader d.w d.h := by
  obtain ⟨w, h', ck⟩ := d
  exact congrArg (Header.mk w h') h

/-! ### CONT_DECODE, check after check (R152, R153) -/

/-- A command that raises k completes with the status of k and the slot as it was. -/
theorem completes_err {i : Instr} {s : State} {b : Bool} {k : ErrKind} (hk : k ≠ .byteConversionFailure)
    (h : exec i s = .next (s.answer b (errResponse k s.draws))) : Completes i s s.slot { st := k.code } := by
  rw [← errResponse_eq hk s.draws]
  exact completes_same h

section ContDecode
variable {inp : List Byte} {s : State} {d : Header} {k : ErrKind} {es : List Chunk}

theorem contDecode_completes_short (hfits : inputFits s.cfg inp = true) (hlen : inp.length < 30) :
    Completes (.contDecode inp) s s.slot { st := 1 } :=
  completes_err (k := .invalidLength) (by decide) (execContDecode_next.2 ⟨hfits, .inl ⟨hlen, rfl⟩⟩)

theorem contDecode_completes_headerErr (hfits : inputFits s.cfg inp = true) (h30 : 30 ≤ inp.length)
    (hd : hdrDec (inp.take 30) = .error k) : Completes (.contDecode inp) s s.slot { st := k.code } :=
  completes_err (hdrDec_err_ne hd) (execContDecode_next.2 ⟨hfits, .inr ⟨h30, .inl ⟨k, hd, rfl⟩⟩⟩)

/-! The header decodes. -/

variable (hfits : inputFits s.cfg inp = true) (h30 : 30 ≤ inp.length) (hd : hdrDec (inp.take 30) = .ok d)
include hfits h30 hd

theorem contDecode_capacity (hcap : s.cfg.maxChunks < (inp.drop 30).length / 5) :
    exec (.contDecode inp) s = .fault .capacityExceeded := by
  have hd' : hdrDec (memRead inp 0 30) = .ok d := hd
  rw [exec, execContDecode, withInput_fits hfits, if_neg (not_lt.2 h30), hd']
  exact if_pos hcap

/-! The full records are within the capacity. -/

variable (hcap : (inp.drop 30).length / 5 ≤ s.cfg.maxChunks)
include hcap

theorem contDecode_completes_recordErr (hes : decodeRecs (split5 (inp.drop 30)) = .error k) :
    Completes (.contDecode inp) s s.slot { st := k.code } :=
  completes_err (decodeRecs_err_ne hes)
    (execContDecode_next.2 ⟨hfits, .inr ⟨h30, .inr ⟨d, hd, hcap, .inl ⟨k, hes, rfl⟩⟩⟩⟩)

theorem contDecode_completes_mismatch (hes : decodeRecs (split5 (inp.drop 30)) = .ok es)
    (hcount : es.length ≠ area d.w d.h) : Completes (.contDecode inp) s s.slot { st := 5 } := by
  rw [decodeRecs_length hes] at hcount
  exact completes_err (k := .dimensionMismatch) (by decide)
    (execContDecode_next.2 ⟨hfits, .inr ⟨h30, .inr ⟨d, hd, hcap, .inr ⟨es, hes, .inl ⟨hcount, rfl⟩⟩⟩⟩⟩)

theorem contDecode_completes_loaded (hes : decodeRecs (split5 (inp.drop 30)) = .ok es)
    (hcount : es.length = area d.w d.h) :
    Completes (.contDecode inp) s (some { hdr := d, chunks := es, payload := inp.drop 30 })
      { r0 := d.w, r1 := d.h, r2 := BitVec.ofNat 64 es.length } := by
  rw [decodeRecs_length hes] at hcount ⊢
  exact completes_load
    (execContDecode_next.2 ⟨hfits, .inr ⟨h30, .inr ⟨d, hd, hcap, .inr ⟨es, hes, .inr ⟨hcount, rfl⟩⟩⟩⟩⟩)

end ContDecode

/-- Settles O44: each check has its lemma; the records of the split are the slices, so the first slice that fails is the
first record that fails, and slices that all decode are a decoded stream, whose payload is the stream. -/
theorem contDecodeCommand : Obligations.ContDecodeCommand := by
  unfold Obligations.ContDecodeCommand
  rintro inp rest s k rfl rfl
  refine ⟨rfl, fun hlong => withInput_overflow hlong _, fun hfits =>
    ⟨contDecode_completes_short hfits, fun h30 => ⟨fun e => contDecode_completes_headerErr hfits h30, fun d hd =>
      ⟨contDecode_capacity hfits h30 hd, fun hcap => ⟨?recordErr, ?decoded⟩⟩⟩⟩⟩
  case recordErr =>
    intro j e hj hbefore he
    refine contDecode_completes_recordErr hfits h30 hd hcap
      (decodeRecs_first_err (split5_getElem? hj) he fun i hi r hr => ?_)
    rw [split5_getElem? (hi.trans hj)] at hr
    cases hr
    exact hbefore i hi
  case decoded =>
    intro es hlen hslices
    have hes : decodeRecs (split5 (inp.drop 30)) = .ok es := by
      refine decodeRecs_all_ok (hlen.trans (split5_length _).symm) fun j x r hx hr => ?_
      have hj : j < es.length := (List.getElem?_eq_some_iff.1 hx).1
      rw [split5_getElem? (hlen ▸ hj)] at hr
      cases hr
      exact hslices j x hx
    rw [← hlen]
    refine ⟨contDecode_completes_mismatch hfits h30 hd hcap hes, fun hcount => ⟨hdrDec_ok_valid hd, ?_,
      contDecode_completes_loaded hfits h30 hd hcap hes hcount⟩⟩
    exact (split5_flatten _).symm.trans (decodeRecs_ok hes).2.symm

/-! ### Encoded streams (R152, R154, R155) -/

section Stream
variable {s : State} {w h : Word64} {es : List Chunk}

theorem stream_take (w h : Word64) (rest : List Byte) : (hdrRec w h ++ rest).take 30 = hdrRec w h :=
  List.take_left' (hdrRec_length w h)

theorem stream_drop (w h : Word64) (rest : List Byte) : (hdrRec w h ++ rest).drop 30 = rest :=
  List.drop_left' (hdrRec_length w h)

/-! The stream of valid entries that fit the input buffer and the capacity passes every check before the count. -/

variable (hfits : inputFits s.cfg (hdrRec w h ++ reencode es) = true) (hvalid : ∀ e ∈ es, e.valid)
  (hcap : es.length ≤ s.cfg.maxChunks)
include hfits hvalid hcap

theorem contDecode_stream_mismatch (hcount : es.length ≠ area w h) :
    Completes (.contDecode (hdrRec w h ++ reencode es)) s s.slot { st := 5 } :=
  contDecode_completes_mismatch (d := mkHeader w h) hfits (by simp) (by rw [stream_take, hdrDec_hdrRec])
    (by simpa [stream_drop] using hcap) (by rw [stream_drop, decodeRecs_split5_reencode hvalid]) hcount

theorem contDecode_stream_loaded (hcount : es.length = area w h) :
    Completes (.contDecode (hdrRec w h ++ reencode es)) s
      (some { hdr := mkHeader w h, chunks := es, payload := reencode es })
      { r0 := w, r1 := h, r2 := BitVec.ofNat 64 es.length } := by
  have hloaded := contDecode_completes_loaded (d := mkHeader w h) hfits (by simp) (by rw [stream_take, hdrDec_hdrRec])
    (by simpa [stream_drop] using hcap) (by rw [stream_drop, decodeRecs_split5_reencode hvalid]) hcount
  rwa [stream_drop] at hloaded

end Stream

/-- What CONT_DECODE accepts is an encoded stream of valid entries, within the capacity and of the exact count. -/
theorem stream_of_contDecode_ok {inp : List Byte} {s t : State} {r : Response} (h : exec (.contDecode inp) s = .next t)
    (hr : t.resp = some r) (hst : r.st = 0) :
    ∃ (d : Header) (es : List Chunk), (∀ e ∈ es, e.valid) ∧ es.length = area d.w d.h ∧
      es.length ≤ s.cfg.maxChunks ∧ inp = hdrRec d.w d.h ++ reencode es := by
  have noErr : ∀ {k : ErrKind} {n : Nat}, some (errResponse k n) ≠ some r := by
    rintro k n ⟨rfl⟩; exact code_ne_zero k hst
  obtain ⟨-, ⟨-, rfl⟩ | ⟨-, ⟨k, -, rfl⟩ | ⟨d, hd, hcap, ⟨k, -, rfl⟩ | ⟨es, hes, ⟨-, rfl⟩ | ⟨hcount, -⟩⟩⟩⟩⟩ :=
    execContDecode_next.1 h
  · exact absurd hr noErr
  · exact absurd hr noErr
  · exact absurd hr noErr
  · exact absurd hr noErr
  · have hloaded := Container.valid_decoded (hdrDec_ok_valid hd) hes hcap
    refine ⟨d, es, hloaded.chunk, (decodeRecs_length hes).trans hcount, hloaded.capacity, ?_⟩
    rw [← hdrDec_ok_eq_hdrRec hd, ← hloaded.payload, List.take_append_drop]

/-- The stream of the records of w·h triplets loads their entries. -/
theorem contDecode_stream_of_triplets {s : State} {w h : Word64} {px : List (Byte × Byte × Byte)}
    (hfits : inputFits s.cfg (hdrRec w h ++ px.flatMap fun p => chunkRec p.1 p.2.1 p.2.2) = true)
    (hcount : px.length = area w h) (hcap : px.length ≤ s.cfg.maxChunks) :
    Completes (.contDecode (hdrRec w h ++ px.flatMap fun p => chunkRec p.1 p.2.1 p.2.2)) s
      (some { hdr := mkHeader w h, chunks := px.map fun p => entry p.1 p.2.1 p.2.2,
              payload := px.flatMap fun p => chunkRec p.1 p.2.1 p.2.2 })
      { r0 := w, r1 := h, r2 := BitVec.ofNat 64 px.length } := by
  rw [← reencode_map_entry] at hfits ⊢
  rw [← List.length_map (as := px) fun p => entry p.1 p.2.1 p.2.2] at hcount hcap ⊢
  exact contDecode_stream_loaded hfits (List.forall_mem_map.2 fun p _ => entry_valid _ _ _) hcap hcount

/-- Settles O45: an accepted input is the stream of the entries it decodes to; and the stream of any triplets decodes to
their entries, by induction over the records (`decodeRecs_split5_reencode`). -/
theorem decodeAcceptsExactlyEncodedStreams : Obligations.DecodeAcceptsExactlyEncodedStreams := by
  unfold Obligations.DecodeAcceptsExactlyEncodedStreams
  intro inp s hfits
  refine ⟨⟨?accepted, ?stream⟩, ?loaded⟩
  case accepted =>
    rintro ⟨t, r, hx, hr, hst⟩
    obtain ⟨d, es, hvalid, hcount, hcap, hinp⟩ := stream_of_contDecode_ok hx hr hst
    obtain ⟨px, rfl⟩ := exists_triplets_of_valid hvalid
    rw [List.length_map] at hcount hcap
    exact ⟨d.w, d.h, px, hcount, hcap, by rw [hinp, reencode_map_entry]⟩
  case stream =>
    rintro ⟨w, h, px, hcount, hcap, rfl⟩
    obtain ⟨t, hx, hr, -⟩ := contDecode_stream_of_triplets hfits hcount hcap
    exact ⟨t, _, hx, hr, rfl⟩
  case loaded =>
    rintro w h px hcount hcap rfl
    exact contDecode_stream_of_triplets hfits hcount hcap

section RoundTrip
variable {s : State} {c : Container} {cfg : Config}

/-- CONT_ENCODE of a valid container answers the stream of its chunks. -/
theorem exec_contEncode_of_valid (hc : s.slot = some c) (hvalid : c.Valid s.cfg) :
    exec .contEncode s = .next (s.answer true { out := hdrRec c.hdr.w c.hdr.h ++ reencode c.chunks }) :=
  execContEncode_next.2 ⟨c, hc, by rw [hvalid.payload]⟩

/-- The stream of n chunks has 30 + 5n bytes. -/
theorem inputFits_stream {w h : Word64} {es : List Chunk}
    (hroom : ∀ n, cfg.maxInBytes = some n → 30 + 5 * es.length ≤ n) :
    inputFits cfg (hdrRec w h ++ reencode es) = true :=
  (inputFits_iff _ _).2 fun n hn => by simpa using hroom n hn

/-- A valid container is what its dimensions and chunks determine. -/
theorem Container.Valid.eq_loaded (hvalid : c.Valid cfg) :
    { hdr := mkHeader c.hdr.w c.hdr.h, chunks := c.chunks, payload := reencode c.chunks } = c := by
  rw [← Header.eq_mkHeader_of_valid hvalid.header, ← hvalid.payload]

end RoundTrip

/-- Settles O46: CONT_ENCODE only answers, and its stream loads the container that the dimensions and chunks determine. -/
theorem encodeThenDecodeRestoresTheContainer : Obligations.EncodeThenDecodeRestoresTheContainer := by
  unfold Obligations.EncodeThenDecodeRestoresTheContainer
  intro s c hc hvalid hcount hroom
  obtain ⟨u, hu, hresp, hslot, -⟩ := contDecode_stream_loaded
    (s := s.answer true { out := hdrRec c.hdr.w c.hdr.h ++ reencode c.chunks })
    (inputFits_stream hroom) hvalid.chunk hvalid.capacity hcount
  rw [hvalid.eq_loaded, ← hc] at hslot
  exact ⟨_, _, u, _, exec_contEncode_of_valid hc hvalid, rfl, rfl, hu, hresp, rfl, hslot⟩

/-- Settles O47: the stream of the chunks passes every check before the count. -/
theorem stagingStreamIsRejected : Obligations.StagingStreamIsRejected := by
  unfold Obligations.StagingStreamIsRejected
  intro s c hc hvalid hcount hroom
  obtain ⟨u, hu, hresp, hslot, -⟩ := contDecode_stream_mismatch
    (s := s.answer true { out := hdrRec c.hdr.w c.hdr.h ++ reencode c.chunks })
    (inputFits_stream hroom) hvalid.chunk hvalid.capacity hcount
  exact ⟨_, _, u, exec_contEncode_of_valid hc hvalid, rfl, rfl, hu, hresp, hslot⟩

/-! ### The validating constructors and the staging state (R142, R143, R149) -/

/-- CONT_FROM_CHUNKS and CONT_DECODE raise an error and keep the slot, or load a container that is not staging. -/
theorem validatingConstructor_slot {i : Instr} {s t : State} (hi : isConstructor i)
    (hne : ∀ w h, i ≠ .contNewEmpty w h) (h : exec i s = .next t) :
    (t.slot = s.slot ∧ ∃ k n, t.resp = some (errResponse k n)) ∨ ∃ d, t.slot = some d ∧ ¬ d.staging := by
  cases i with
  | contNewEmpty w h' => exact absurd rfl (hne w h')
  | contFromChunks w h' trip =>
    obtain ⟨-, ⟨-, rfl⟩ | ⟨hcount, rfl⟩⟩ := execContFromChunks_next.1 h
    · exact .inl ⟨rfl, _, _, rfl⟩
    · exact .inr ⟨_, rfl, not_not.2 ((List.length_map _).trans hcount)⟩
  | contDecode inp =>
    obtain ⟨-, ⟨-, rfl⟩ | ⟨-, ⟨k, -, rfl⟩ | ⟨d, -, -, ⟨k, -, rfl⟩ | ⟨es, hes, ⟨-, rfl⟩ | ⟨hcount, rfl⟩⟩⟩⟩⟩ :=
      execContDecode_next.1 h
    · exact .inl ⟨rfl, _, _, rfl⟩
    · exact .inl ⟨rfl, _, _, rfl⟩
    · exact .inl ⟨rfl, _, _, rfl⟩
    · exact .inl ⟨rfl, _, _, rfl⟩
    · exact .inr ⟨_, rfl, not_not.2 ((decodeRecs_length hes).trans hcount)⟩
  | _ => exact hi.elim

/-- So, where they answer OK, the container has exactly width times height chunks. -/
theorem validatingConstructor_ok {i : Instr} {s t : State} {r : Response} (hi : isConstructor i)
    (hne : ∀ w h, i ≠ .contNewEmpty w h) (h : exec i s = .next t) (hr : t.resp = some r) (hst : r.st = 0) :
    ∃ d, t.slot = some d ∧ ¬ d.staging := by
  obtain ⟨-, k, n, hk⟩ | hloaded := validatingConstructor_slot hi hne h
  · cases hr.symm.trans hk
    exact absurd hst (code_ne_zero k)
  · exact hloaded

/-- CONT_REPLACE_AT keeps NCH and the header. -/
theorem contReplaceAt_keeps {idx : Word64} {pix : Word24} {s t : State} (h : exec (.contReplaceAt idx pix) s = .next t) :
    ∃ c d, s.slot = some c ∧ t.slot = some d ∧ d.chunks.length = c.chunks.length ∧ d.hdr = c.hdr := by
  obtain ⟨c, hc, ⟨-, rfl⟩ | ⟨-, rfl⟩⟩ := execContReplaceAt_next.1 h
  · exact ⟨c, c, hc, hc, rfl, rfl⟩
  · exact ⟨c, _, hc, rfl, List.length_set, rfl⟩

/-- CONT_FROM_CHUNKS answers ST = 5 where the count is not the exact product. -/
theorem contFromChunks_completes_mismatch {w h : Word64} {trip : List Word24} {s : State}
    (hcap : trip.length ≤ s.cfg.maxChunks) (hcount : trip.length ≠ area w h) :
    Completes (.contFromChunks w h trip) s s.slot { st := 5 } :=
  completes_err (k := .dimensionMismatch) (by decide) (execContFromChunks_next.2 ⟨hcap, .inl ⟨hcount, rfl⟩⟩)

/-- Settles O35: a legal capacity is below 2^64, so no TRIP within it has that many triplets; what the validating
constructors load is not staging. -/
theorem dimensionCheckIsExact : Obligations.DimensionCheckIsExact := by
  unfold Obligations.DimensionCheckIsExact
  refine ⟨?huge, ?loaded⟩
  case huge =>
    intro w h trip s hlegal hhuge hcap
    have hbound : s.cfg.maxChunks < 2 ^ 64 := by
      rw [Config.legal, Bool.and_eq_true, decide_eq_true_eq] at hlegal
      exact hlegal.1
    exact contFromChunks_completes_mismatch hcap (hcap.trans_lt (hbound.trans_le hhuge)).ne
  case loaded =>
    intro i s t r hi hne hx hr hst
    obtain ⟨d, hd, hcount⟩ := validatingConstructor_ok hi hne hx hr hst
    exact ⟨d, hd, not_not.1 hcount⟩

/-- Settles O48: beside the three commands named, a command keeps the slot, or it is a validating constructor or
CONT_REPLACE_AT. -/
theorem whoEntersTheStagingState : Obligations.WhoEntersTheStagingState := by
  unfold Obligations.WhoEntersTheStagingState
  refine ⟨?enters, ?validating, ?keeps⟩
  case enters =>
    intro i s t d hx hd hstaging hbefore
    have kept : t.slot ≠ s.slot := fun hslot => hbefore d (hslot ▸ hd) hstaging
    have constructed (hi : isConstructor i) (hne : ∀ w h, i ≠ .contNewEmpty w h) : False := by
      obtain ⟨hslot, -⟩ | ⟨e, he, hexact⟩ := validatingConstructor_slot hi hne hx
      · exact kept hslot
      · cases hd.symm.trans he
        exact hexact hstaging
    cases i with
    | contNewEmpty w h => exact .inl ⟨w, h, rfl⟩
    | contAppend pix => exact .inr (.inl ⟨pix, rfl⟩)
    | contRemoveAt idx => exact .inr (.inr ⟨idx, rfl⟩)
    | contFromChunks | contDecode => exact (constructed trivial nofun).elim
    | contReplaceAt idx pix =>
      obtain ⟨c, e, hc, he, hlen, hhdr⟩ := contReplaceAt_keeps hx
      cases hd.symm.trans he
      rw [Container.staging, hlen, hhdr] at hstaging
      exact absurd hstaging (hbefore c hc)
    | _ => exact absurd (exec_slot_of_not_writesSlot hx not_false) kept
  case validating =>
    intro i s t r d hx hr hst hi hd
    obtain ⟨hcons, hne⟩ : isConstructor i ∧ ∀ w h, i ≠ .contNewEmpty w h := by
      obtain ⟨w, h, trip, rfl⟩ | ⟨inp, rfl⟩ := hi <;> exact ⟨trivial, nofun⟩
    obtain ⟨e, he, hexact⟩ := validatingConstructor_ok hcons hne hx hr hst
    cases hd.symm.trans he
    exact hexact
  case keeps =>
    have same {i : Instr} {s t : State} {c : Container} (hx : exec i s = .next t) (hi : ¬ writesSlot i)
        (hc : s.slot = some c) : ∃ d, t.slot = some d ∧ d.chunks.length = c.chunks.length ∧ d.hdr = c.hdr :=
      ⟨c, (exec_slot_of_not_writesSlot hx hi).trans hc, rfl, rfl⟩
    rintro i s t c hx hc (⟨idx, pix, rfl⟩ | rfl | ⟨idx, rfl⟩ | rfl)
    · obtain ⟨c', d, hc', hd, hlen, hhdr⟩ := contReplaceAt_keeps hx
      cases hc.symm.trans hc'
      exact ⟨d, hd, hlen, hhdr⟩
    · exact same hx not_false hc
    · exact same hx not_false hc
    · exact same hx not_false hc

/-! ### The constructors CONT_NEW_EMPTY and CONT_FROM_CHUNKS (R141, R143) -/

/-- Settles O33: the command loads the empty container and answers OK. -/
theorem contNewEmptyCommand : Obligations.ContNewEmptyCommand := by
  unfold Obligations.ContNewEmptyCommand
  exact fun w h s => ⟨rfl, completes_load (execContNewEmpty_next.2 rfl)⟩

/-- Settles O34: the capacity, then the count, then the container of the triplets' entries. -/
theorem contFromChunksCommand : Obligations.ContFromChunksCommand := by
  unfold Obligations.ContFromChunksCommand
  intro w h trip s
  refine ⟨rfl, fun hover => if_pos hover, contFromChunks_completes_mismatch, fun hcap hcount =>
    ⟨_, completes_load (execContFromChunks_next.2 ⟨hcap, .inr ⟨hcount, rfl⟩⟩), rfl, List.length_map _, ?entries, rfl⟩⟩
  case entries =>
    intro j p hp
    rw [List.getElem?_map, hp]
    rfl

/-! ### The commands on a loaded slot (R144 to R148, R150) -/

/-- Settles O36: the command answers the dimensions of the header. -/
theorem contDimensionsCommand : Obligations.ContDimensionsCommand := by
  unfold Obligations.ContDimensionsCommand
  exact fun s => ⟨rfl, fun hs => withContainer_none hs _,
    fun c hc => completes_same (execContDimensions_next.2 ⟨c, hc, rfl⟩)⟩

/-- Settles O37: the slot guard, then the capacity, then the container with the entry and its record at the end. -/
theorem contAppendCommand : Obligations.ContAppendCommand := by
  unfold Obligations.ContAppendCommand
  rintro pix r g b s rfl rfl rfl
  exact ⟨rfl, fun hs => withContainer_none hs _, fun c hc hfull => (withContainer_some hc _).trans (if_pos hfull),
    fun c hc hroom => completes_load (execContAppend_next.2 ⟨c, hc, hroom, rfl⟩)⟩

/-- Settles O38: the answer is that of the lookup, in range and out of range. -/
theorem contGetAtCommand : Obligations.ContGetAtCommand := by
  unfold Obligations.ContGetAtCommand
  refine fun idx s => ⟨rfl, fun hs => withContainer_none hs _, ?hit, ?miss⟩
  case hit =>
    intro c hidx hc
    exact completes_same (b := false) (execContGetAt_next.2 ⟨c, hc, by rw [List.getElem?_eq_getElem hidx]; rfl⟩)
  case miss =>
    intro c hc hidx
    exact completes_same (b := false) (execContGetAt_next.2 ⟨c, hc, by rw [List.getElem?_eq_none hidx]⟩)

/-- Settles O39: out of range the command raises NonExistentChunk; in range it erases the entry and re-encodes. -/
theorem contRemoveAtCommand : Obligations.ContRemoveAtCommand := by
  unfold Obligations.ContRemoveAtCommand
  refine fun idx s => ⟨rfl, fun hs => withContainer_none hs _, fun c hc hidx =>
    completes_err (k := .nonExistentChunk) (by decide) (execContRemoveAt_next.2 ⟨c, hc, .inl ⟨hidx, rfl⟩⟩), ?removed⟩
  case removed =>
    intro c hc hidx
    exact ⟨_, completes_load (execContRemoveAt_next.2 ⟨c, hc, .inr ⟨hidx, rfl⟩⟩), rfl,
      List.length_eraseIdx_add_one hidx, fun j => List.getElem?_eraseIdx, rfl⟩

/-- Replacing chunk i moves no byte of the payload but the record of chunk i. -/
theorem reencode_set_getElem? (es : List Chunk) (e : Chunk) {i k : Nat} (hk : k < 5 * i ∨ 5 * i + 5 ≤ k) :
    (reencode (es.set i e))[k]? = (reencode es)[k]? := by
  obtain hbelow | habove := hk
  · have htake : (reencode (es.set i e)).take (5 * i) = (reencode es).take (5 * i) := by
      rw [← reencode_take, ← reencode_take, List.take_set_of_le le_rfl]
    rw [← List.getElem?_take_of_lt hbelow, htake, List.getElem?_take_of_lt hbelow]
  · obtain ⟨m, rfl⟩ := Nat.exists_eq_add_of_le habove
    have hdrop : (reencode (es.set i e)).drop (5 * i + 5) = (reencode es).drop (5 * i + 5) := by
      rw [← Nat.mul_succ, ← reencode_drop, ← reencode_drop, List.drop_set_of_lt (Nat.lt_succ_self i)]
    rw [← List.getElem?_drop, hdrop, List.getElem?_drop]

/-- Settles O40: out of range the command raises NonExistentChunk; in range it sets the entry and re-encodes, which moves
no byte outside the entry's record. -/
theorem contReplaceAtCommand : Obligations.ContReplaceAtCommand := by
  unfold Obligations.ContReplaceAtCommand
  rintro idx pix r g b s rfl rfl rfl
  refine ⟨rfl, fun hs => withContainer_none hs _, fun c hc hidx =>
    completes_err (k := .nonExistentChunk) (by decide) (execContReplaceAt_next.2 ⟨c, hc, .inl ⟨hidx, rfl⟩⟩), ?replaced⟩
  case replaced =>
    intro c hc hidx
    refine ⟨_, completes_load (execContReplaceAt_next.2 ⟨c, hc, .inr ⟨hidx, rfl⟩⟩), rfl, List.length_set, ?entries, rfl,
      ?frame⟩
    case entries =>
      intro j hj
      rw [List.getElem?_set]
      split
      next heq => rw [if_pos heq.symm]; rfl
      next hne => rw [if_neg (Ne.symm hne)]
    case frame =>
      intro hpayload k hk
      rw [hpayload]
      exact reencode_set_getElem? _ _ hk

/-- Settles O41: the command answers the header record and the payload; a consistent payload has five bytes for each
chunk. -/
theorem contEncodeCommand : Obligations.ContEncodeCommand := by
  unfold Obligations.ContEncodeCommand
  refine fun s => ⟨rfl, fun hs => withContainer_none hs _, fun c hc =>
    ⟨completes_same (execContEncode_next.2 ⟨c, hc, rfl⟩), fun hpayload => ?_⟩⟩
  have hreencoded : c.payload = reencode c.chunks := hpayload
  rw [List.length_append, hdrRec_length, hreencoded, reencode_length]

end Sys2Proof.Machine

/-! ### Family 60_exceptions.md: errors and their statuses (R181, R185, R188), the model faults (R189 to R193), the idle and
reset steps (R202), and the two ways to deliver an image (R196) -/

namespace Sys2Proof.Machine

/-! ### Steps that run no command (R188, R202) -/

/-- Settles O6: the laws of the step on an empty list of pending actions and on a reset. -/
theorem idleAndResetSteps : Obligations.IdleAndResetSteps := by
  unfold Obligations.IdleAndResetSteps
  exact fun s => ⟨step_idle, fun rest hhost => ⟨_, step_reset hhost, rfl, rfl, rfl, rfl⟩⟩

/-- Settles O4: such a word decodes to no instruction, so the step raises IllegalCommand before any checksum. -/
theorem illegalWordAnswersSeven : Obligations.IllegalWordAnswersSeven := by
  unfold Obligations.IllegalWordAnswersSeven
  intro s c rest hhost hcw
  obtain ⟨hlegal, -, -⟩ := illegalWordsAreAllTheOthers c
  exact ⟨_, step_illegal hhost fun i hd => hcw (hlegal.1 ⟨i, hd⟩), rfl, rfl, rfl, rfl, rfl⟩

/-! ### Errors (R185) -/

section Errors
variable {s t : State} {r : Response}

/-- A command that answers an ST other than 0 has raised an error. -/
theorem Ending.raised_of_st_ne_zero {i : Instr} (h : Ending i s t) (hr : t.resp = some r) (hst : r.st ≠ 0) :
    ∃ k b, k ≠ .byteConversionFailure ∧ t = s.answer b (errResponse k s.draws) := by
  cases h with
  | raised k b hk hb => exact ⟨k, b, hk, rfl⟩
  | kept b q hq hn => cases hr; exact absurd hq hst
  | rewritten c d b q hq hn hc hd => cases hr; exact absurd hq hst
  | constructed d b q hq hi => cases hr; exact absurd hq hst

/-- A step on an issued command, legal or not, that answers an ST other than 0 has raised an error. -/
theorem step_raised_of_st_ne_zero {c : Command} {rest : List HostAct} (hhost : s.host = .issue c :: rest)
    (h : step s = .next t) (hr : t.resp = some r) (hst : r.st ≠ 0) :
    ∃ k b, k ≠ .byteConversionFailure ∧ t = { s with host := rest }.answer b (errResponse k s.draws) := by
  by_cases hlegal : ∃ i, decode c = .ok i
  · obtain ⟨i, hd⟩ := hlegal
    rw [step_legal hhost hd] at h
    exact (exec_ending h).raised_of_st_ne_zero hr hst
  · rw [step_illegal hhost (not_exists.1 hlegal)] at h
    exact ⟨.illegalCommand, false, by decide, raise_eq_next.1 h⟩

end Errors

/-- Settles O50: the step has raised an error, which only answers, with every field but the status at its default. -/
theorem errorsWriteNothing : Obligations.ErrorsWriteNothing := by
  unfold Obligations.ErrorsWriteNothing
  intro s t c rest r hhost h hr hst
  obtain ⟨k, b, hk, rfl⟩ := step_raised_of_st_ne_zero hhost h hr hst
  cases hr
  exact ⟨rfl, rfl, rfl, errResponse_eq hk s.draws⟩

/-! ### The statuses of each command (R181, R187) -/

/-- Every completed command answers a status of its row: 0 where it delivers a result, and else the code of an error that
its checks or its record decoders raise. -/
theorem exec_status {i : Instr} {s t : State} (h : exec i s = .next t) :
    ∃ r, t.resp = some r ∧ r.st ∈ possibleStatus i := by
  cases i with
  | checksum inp => obtain ⟨-, rfl⟩ := execChecksum_next.1 h; exact ⟨_, rfl, List.mem_cons_self⟩
  | pixelEncode pix => rw [execPixelEncode_next.1 h]; exact ⟨_, rfl, List.mem_cons_self⟩
  | chunkNew pix => rw [execChunkNew_next.1 h]; exact ⟨_, rfl, List.mem_cons_self⟩
  | chunkEncode pix => rw [execChunkEncode_next.1 h]; exact ⟨_, rfl, List.mem_cons_self⟩
  | chunkDecode inp =>
    obtain ⟨-, ⟨k, hk, rfl⟩ | ⟨e, -, rfl⟩⟩ := execChunkDecode_next.1 h
    · obtain ⟨-, rfl⟩ | ⟨-, rfl⟩ := chunkDec_err hk <;> exact ⟨_, rfl, by simp [possibleStatus, ErrKind.code]⟩
    · exact ⟨_, rfl, List.mem_cons_self⟩
  | headerNew w h' => rw [execHeaderNew_next.1 h]; exact ⟨_, rfl, List.mem_cons_self⟩
  | headerEncode w h' => rw [execHeaderEncode_next.1 h]; exact ⟨_, rfl, List.mem_cons_self⟩
  | headerDecode inp =>
    obtain ⟨-, ⟨k, hk, rfl⟩ | ⟨d, -, rfl⟩⟩ := execHeaderDecode_next.1 h
    · obtain ⟨-, rfl⟩ | ⟨-, rfl⟩ | ⟨-, rfl⟩ := hdrDec_err hk <;>
        exact ⟨_, rfl, by simp [possibleStatus, ErrKind.code]⟩
    · exact ⟨_, rfl, List.mem_cons_self⟩
  | contNewEmpty w h' => rw [execContNewEmpty_next.1 h]; exact ⟨_, rfl, List.mem_cons_self⟩
  | contFromChunks w h' trip =>
    obtain ⟨-, ⟨-, rfl⟩ | ⟨-, rfl⟩⟩ := execContFromChunks_next.1 h
    · exact ⟨_, rfl, by simp [possibleStatus, ErrKind.code]⟩
    · exact ⟨_, rfl, List.mem_cons_self⟩
  | contDimensions => obtain ⟨c, -, rfl⟩ := execContDimensions_next.1 h; exact ⟨_, rfl, List.mem_cons_self⟩
  | contAppend pix => obtain ⟨c, -, -, rfl⟩ := execContAppend_next.1 h; exact ⟨_, rfl, List.mem_cons_self⟩
  | contGetAt idx =>
    obtain ⟨c, -, rfl⟩ := execContGetAt_next.1 h
    exact ⟨_, rfl, by split <;> exact List.mem_cons_self⟩
  | contRemoveAt idx =>
    obtain ⟨c, -, ⟨-, rfl⟩ | ⟨-, rfl⟩⟩ := execContRemoveAt_next.1 h
    · exact ⟨_, rfl, by simp [possibleStatus, ErrKind.code]⟩
    · exact ⟨_, rfl, List.mem_cons_self⟩
  | contReplaceAt idx pix =>
    obtain ⟨c, -, ⟨-, rfl⟩ | ⟨-, rfl⟩⟩ := execContReplaceAt_next.1 h
    · exact ⟨_, rfl, by simp [possibleStatus, ErrKind.code]⟩
    · exact ⟨_, rfl, List.mem_cons_self⟩
  | contEncode => obtain ⟨c, -, rfl⟩ := execContEncode_next.1 h; exact ⟨_, rfl, List.mem_cons_self⟩
  | contDecode inp =>
    obtain ⟨-, ⟨-, rfl⟩ | ⟨-, ⟨k, hk, rfl⟩ | ⟨d, -, -, ⟨k, hk, rfl⟩ | ⟨es, -, ⟨-, rfl⟩ | ⟨-, rfl⟩⟩⟩⟩⟩ :=
      execContDecode_next.1 h
    · exact ⟨_, rfl, by simp [possibleStatus, ErrKind.code]⟩
    · obtain ⟨-, rfl⟩ | ⟨-, rfl⟩ | ⟨-, rfl⟩ := hdrDec_err hk <;>
        exact ⟨_, rfl, by simp [possibleStatus, ErrKind.code]⟩
    · obtain rfl | rfl := decodeRecs_err hk <;> exact ⟨_, rfl, by simp [possibleStatus, ErrKind.code]⟩
    · exact ⟨_, rfl, by simp [possibleStatus, ErrKind.code]⟩
    · exact ⟨_, rfl, List.mem_cons_self⟩

/-- No row of the table holds the unreachable status. -/
theorem six_notMem_possibleStatus (i : Instr) : 6 ∉ possibleStatus i := by
  cases i <;> simp [possibleStatus]

/-- Settles O51: the status is in the command's row, and no row holds 6. -/
theorem statusesOfEachCommand : Obligations.StatusesOfEachCommand := by
  unfold Obligations.StatusesOfEachCommand
  intro i s t r h hr
  obtain ⟨q, hq, hmem⟩ := exec_status h
  cases hr.symm.trans hq
  exact ⟨hmem, ne_of_mem_of_not_mem hmem (six_notMem_possibleStatus i)⟩

/-! ### The model faults (R189 to R193) -/

/-- The result o is a fault exactly as P says, and no refusal. -/
def FaultsExactly (P : Fault → Prop) (o : Result) : Prop :=
  (∀ f, o = .fault f ↔ P f) ∧ ∀ q, o ≠ .refused q

namespace FaultsExactly
variable {P : Fault → Prop} {o : Result} {s : State}

theorem next {t : State} (hP : ∀ f, ¬ P f) : FaultsExactly P (.next t) :=
  ⟨fun f => iff_of_false nofun (hP f), nofun⟩

theorem fault {f₀ : Fault} (hP : ∀ f, P f ↔ f = f₀) : FaultsExactly P (.fault f₀) :=
  ⟨fun f => by rw [hP, Host.Outcome.fault.injEq, eq_comm], nofun⟩

theorem ite {p : Prop} [Decidable p] {o' : Result} (hp : p → FaultsExactly P o) (hn : ¬ p → FaultsExactly P o') :
    FaultsExactly P (if p then o else o') := by
  split
  next h => exact hp h
  next h => exact hn h

/-- The input guard (R192), before a command of whatever kind. -/
theorem withInput {inp : List Byte} (hlong : inputFits s.cfg inp = false → ∀ f, P f ↔ f = .inputOverflow)
    (hfits : inputFits s.cfg inp = true → FaultsExactly P o) : FaultsExactly P (withInput s inp o) :=
  .ite hfits fun h => .fault (hlong (by simpa using h))

/-- The slot guard (R191), before a command of whatever kind. -/
theorem withContainer {cmd : Container → Result} (hempty : s.slot = none → ∀ f, P f ↔ f = .noContainer)
    (hloaded : ∀ c, s.slot = some c → FaultsExactly P (cmd c)) : FaultsExactly P (withContainer s cmd) := by
  cases hs : s.slot with
  | none => rw [withContainer_none hs]; exact .fault (hempty hs)
  | some c => rw [withContainer_some hs]; exact hloaded c hs

/-- A command that completes on every input that fits faults on the others. -/
theorem withInput_completing {inp : List Byte} (h : ∃ t, o = .next t) :
    FaultsExactly (fun f => f = .inputOverflow ∧ inputFits s.cfg inp = false) (Machine.withInput s inp o) := by
  obtain ⟨t, rfl⟩ := h
  exact .withInput (fun hlong f => and_iff_left hlong) fun hfits => .next fun f hf => by simp [hfits] at hf

/-- A command that completes on every container faults on an empty slot alone. -/
theorem withContainer_completing {cmd : Container → Result} (h : ∀ c, ∃ t, cmd c = .next t) :
    FaultsExactly (fun f => f = .noContainer ∧ s.slot = none) (Machine.withContainer s cmd) := by
  refine .withContainer (fun hempty f => and_iff_left hempty) fun c hc => ?_
  obtain ⟨t, ht⟩ := h c
  rw [ht]
  exact .next fun f hf => by simp [hc] at hf

end FaultsExactly

/-- Every command is built from the guards and from endings that complete; the capacity is the only other fault. -/
theorem exec_faultsExactly (i : Instr) (s : State) : FaultsExactly (Faults i s) (exec i s) := by
  cases i with
  | checksum inp => exact .withInput_completing ⟨_, rfl⟩
  | chunkDecode inp => exact .withInput_completing (by cases chunkDec inp <;> exact ⟨_, rfl⟩)
  | headerDecode inp => exact .withInput_completing (by cases hdrDec inp <;> exact ⟨_, rfl⟩)
  | pixelEncode | chunkNew | chunkEncode | headerNew | headerEncode | contNewEmpty => exact .next fun _ => not_false
  | contDimensions => exact .withContainer_completing fun c => ⟨_, rfl⟩
  | contGetAt idx => exact .withContainer_completing fun c => by cases c.chunks[idx.toNat]? <;> exact ⟨_, rfl⟩
  | contRemoveAt idx => exact .withContainer_completing fun c => by split <;> exact ⟨_, rfl⟩
  | contReplaceAt idx pix => exact .withContainer_completing fun c => by split <;> exact ⟨_, rfl⟩
  | contEncode => exact .withContainer_completing fun c => ⟨_, rfl⟩
  | contAppend pix =>
    refine .withContainer (fun hempty f => by simp [Faults, hempty]) fun c hc => .ite (fun hfull => ?_) fun hroom => ?_
    · exact .fault fun f => by simp [Faults, hc, hfull]
    · exact .next fun f => by simp [Faults, hc, hroom]
  | contFromChunks w h trip =>
    refine .ite (fun hover => .fault fun f => and_iff_left hover) fun hcap => ?_
    have hno : ∀ f, ¬ Faults (.contFromChunks w h trip) s f := fun f hf => hcap hf.2
    exact .ite (fun _ => .next hno) fun _ => .next hno
  | contDecode inp =>
    refine .withInput (fun hlong f => by simp [Faults, hlong]) fun hfits => .ite (fun hshort => ?short) fun h30 => ?header
    case short => exact .next fun f => by simp [Faults, hfits, not_le.2 hshort]
    case header =>
      cases hd : hdrDec (memRead inp 0 30) with
      | error k =>
        have htake : hdrDec (inp.take 30) = .error k := hd
        exact .next fun f => by simp [Faults, hfits, htake]
      | ok d =>
        have htake : hdrDec (inp.take 30) = .ok d := hd
        have hcapacity (f : Fault) : Faults (.contDecode inp) s f ↔
            f = .capacityExceeded ∧ s.cfg.maxChunks < (inp.drop 30).length / 5 := by
          simp [Faults, hfits, htake, not_lt.1 h30]
        refine .ite (fun hover => .fault fun f => (hcapacity f).trans (and_iff_left hover)) fun hroom => ?_
        have hno : ∀ f, ¬ Faults (.contDecode inp) s f := fun f hf => hroom ((hcapacity f).1 hf).2
        cases decodeRecs (split5 (inp.drop 30)) with
        | error k => exact .next hno
        | ok es => exact .ite (fun _ => .next hno) fun _ => .next hno

/-- Settles O52: the two clauses are the two halves of `FaultsExactly`. -/
theorem faultsExactlyWhereTheRulesSay : Obligations.FaultsExactlyWhereTheRulesSay := by
  unfold Obligations.FaultsExactlyWhereTheRulesSay
  exact exec_faultsExactly

/-! ### An image delivered pixel by pixel (R196) -/

section Append
variable {s : State}

/-- The container after one CONT_APPEND for each of the triplets, in order (43_container.md R145). -/
def Container.appendAll (c : Container) (trip : List Word24) : Container :=
  { c with chunks := c.chunks ++ trip.map entryOfPix, payload := c.payload ++ reencode (trip.map entryOfPix) }

@[simp] theorem Container.appendAll_nil (c : Container) : c.appendAll [] = c := by
  simp [appendAll]

theorem Container.appendAll_singleton (c : Container) (p : Word24) :
    c.appendAll [p] =
      { c with chunks := c.chunks ++ [entryOfPix p], payload := c.payload ++ (entryOfPix p).record } := by
  simp [appendAll]

theorem Container.appendAll_cons (c : Container) (p : Word24) (trip : List Word24) :
    c.appendAll (p :: trip) = (c.appendAll [p]).appendAll trip := by
  simp [appendAll]

@[simp] theorem Container.appendAll_length (c : Container) (trip : List Word24) :
    (c.appendAll trip).chunks.length = c.chunks.length + trip.length := by
  simp [appendAll]

/-- The step on an issued CONT_NEW_EMPTY. -/
theorem step_contNewEmpty {w h : Word64} {rest : List HostAct}
    (hhost : s.host = .issue (encode (.contNewEmpty w h)) :: rest) :
    step s = .next (({ s with host := rest }.load { hdr := mkHeader w h, chunks := [], payload := [] }).answer true {}) := by
  rw [step_legal hhost (decode_encode _)]
  exact execContNewEmpty_next.2 rfl

/-- The step on an issued CONT_APPEND below the capacity. -/
theorem step_contAppend {c : Container} {p : Word24} {rest : List HostAct}
    (hhost : s.host = .issue (encode (.contAppend p)) :: rest) (hc : s.slot = some c)
    (hroom : c.chunks.length ≠ s.cfg.maxChunks) :
    step s = .next (({ s with host := rest }.load (c.appendAll [p])).answer true {}) := by
  rw [step_legal hhost (decode_encode _), Container.appendAll_singleton]
  exact execContAppend_next.2 ⟨c, hc, hroom, rfl⟩

/-- The run of one CONT_APPEND for each triplet, within the capacity, from any loaded slot. -/
theorem run_contAppends {c : Container} {trip : List Word24}
    (hhost : s.host = trip.map fun p => .issue (encode (.contAppend p))) (hc : s.slot = some c)
    (hcap : c.chunks.length + trip.length ≤ s.cfg.maxChunks) :
    ∃ t, Sys2Proof.core.run trip.length s = .next t ∧ t.host = [] ∧ t.slot = some (c.appendAll trip) := by
  induction trip generalizing s c with
  | nil => exact ⟨s, rfl, hhost, by rw [Container.appendAll_nil, hc]⟩
  | cons p trip ih =>
    rw [List.length_cons] at hcap
    rw [List.length_cons, run_succ (step_contAppend hhost hc (by omega)), Container.appendAll_cons c p trip]
    refine ih rfl rfl ?_
    rwa [Container.appendAll_length, List.length_singleton, Nat.add_right_comm]

/-- The run of CONT_NEW_EMPTY and then one CONT_APPEND for each triplet, within the capacity, from any slot. -/
theorem run_contNewEmpty_contAppends {w h : Word64} {trip : List Word24}
    (hhost : s.host = .issue (encode (.contNewEmpty w h)) :: trip.map fun p => .issue (encode (.contAppend p)))
    (hcap : trip.length ≤ s.cfg.maxChunks) :
    ∃ t, Sys2Proof.core.run (trip.length + 1) s = .next t ∧ t.host = [] ∧
      t.slot = some (Container.appendAll { hdr := mkHeader w h, chunks := [], payload := [] } trip) := by
  rw [run_succ (step_contNewEmpty hhost)]
  exact run_contAppends rfl rfl ((Nat.zero_add _).trans_le hcap)

end Append

/-- Settles O49: the run of the appends starts at the empty container, to which appending all entries gives the container
that CONT_FROM_CHUNKS loads. -/
theorem appendingPixelsEqualsFromChunks : Obligations.AppendingPixelsEqualsFromChunks := by
  unfold Obligations.AppendingPixelsEqualsFromChunks
  intro s w h trip hcount hcap hhost
  obtain ⟨t, hrun, hdone, hslot⟩ := run_contNewEmpty_contAppends hhost hcap
  exact ⟨t, _, hrun, execContFromChunks_next.2 ⟨hcap, .inr ⟨hcount, rfl⟩⟩, hslot, hdone, _, hslot,
    (Container.appendAll_length _ _).trans (Nat.zero_add _)⟩

end Sys2Proof.Machine
